-- ==== Sys2Proof/Word.lean ====
section
/-! DEFINITION. The word types of the OTP kernel block (spec/00_scope.md R7, R9; spec/20_memory.md R60). -/

namespace Sys2Proof

/-- A `u32`: a register value or a command word (R9, R80). -/
abbrev Word := BitVec 32

/-- A `u8`: one byte of a buffer (R9, R35). -/
abbrev Byte := BitVec 8

/-- A block offset; offsets are 14 bits (R60). -/
abbrev Offset := BitVec 14

/-- A base32 symbol value 0..31 (R7). -/
abbrev Symbol := BitVec 5

end Sys2Proof
end

