-- ==== Sys2Proof/Syntax.lean ====
section
/-! DEFINITION. The commands of the block, one constructor per row of spec/opcode_table.json
(spec/30_encoding.md R85, R86). No command carries an operand: operands are implicit (R82). -/

namespace Sys2Proof

/-- A command of the block; the last constructor is the table's row `(illegal)`, the outcome of every
word that is no command (R86), and carries that word. -/
inductive Instr where
  /-- `NOP`, R170. -/
  | nop
  /-- `B32ENC`, R102. -/
  | b32enc
  /-- `B32DEC`, R104. -/
  | b32dec
  /-- `CTRSER`, R130. -/
  | ctrser
  /-- `HOTPTRUNC`, R132. -/
  | hotptrunc
  /-- `CTCMP`, R150. -/
  | ctcmp
  /-- `TRUNCCMP`, R153. -/
  | trunccmp
  /-- `ZEROIZE`, R171. -/
  | zeroize
  /-- An illegal command word, R86 and R172. -/
  | illegal (w : Word)
  deriving DecidableEq, Repr

end Sys2Proof
end

