-- ==== Sys2Proof/WellFormed.lean ====
section
/-! DEFINITION. Which terms of `Instr` stand for a command word (spec/30_encoding.md R85, R86). -/

namespace Sys2Proof

/-- The eight commands are always well formed.  `illegal w` is one exactly when `w` is none of the eight
words 0x00000000 to 0x00000007 of R85: a set reserved bit or an `OPC` of 0x08 to 0xFF makes the word,
read as one number, at least 8 (R86). -/
def Instr.wf : Instr → Bool
  | .nop => true
  | .b32enc => true
  | .b32dec => true
  | .ctrser => true
  | .hotptrunc => true
  | .ctcmp => true
  | .trunccmp => true
  | .zeroize => true
  | .illegal w => decide (8 ≤ w.toNat)

end Sys2Proof
end

