-- ==== Sys2Proof/Decode.lean ====
section
/-! DEFINITION. Decoding and encoding of command words (spec/30_encoding.md R80 to R86).  A command word
is one 32-bit value carried by the `CMD` write (R24); there is no byte stream to decode. -/

namespace Sys2Proof

/-- The field `OPC`, bits [7:0] of a command word (R80). -/
def opcOf (w : Word) : BitVec 8 := w.extractLsb' 0 8

/-- The field `RSV`, bits [31:8] of a command word, required to be 0 (R80). -/
def rsvOf (w : Word) : BitVec 24 := w.extractLsb' 8 24

/-- Decoding is total (R81): `OPC` selects the command when `RSV = 0` and `OPC` is one of the values of
R85 (R83); every other word is the illegal command (R84, R86). -/
def decode (w : Word) : Instr :=
  if rsvOf w = 0 then
    match (opcOf w).toNat with
    | 0x00 => .nop
    | 0x01 => .b32enc
    | 0x02 => .b32dec
    | 0x03 => .ctrser
    | 0x04 => .hotptrunc
    | 0x05 => .ctcmp
    | 0x06 => .trunccmp
    | 0x07 => .zeroize
    | _ => .illegal w
  else .illegal w

/-- A word with reserved bits 0 and the given opcode (R80). -/
def commandWord (opc : BitVec 8) : Word := (0 : BitVec 24) ++ opc

/-- The command word of an instruction (R85); an illegal command is the word itself. -/
def encode : Instr → Word
  | .nop => commandWord 0x00
  | .b32enc => commandWord 0x01
  | .b32dec => commandWord 0x02
  | .ctrser => commandWord 0x03
  | .hotptrunc => commandWord 0x04
  | .ctcmp => commandWord 0x05
  | .trunccmp => commandWord 0x06
  | .zeroize => commandWord 0x07
  | .illegal w => w

/-- The instruction read from the low `nbits` bits of `w`, numbered as spec/opcode_table.json numbers
them (bit 0 least significant); the bits above are 0.  No command is longer than 32 bits (R81). -/
def decodeTableWord (nbits w : Nat) : Option Instr :=
  if nbits ≤ 32 then some (decode (BitVec.ofNat 32 (w % 2 ^ nbits))) else none

end Sys2Proof
end

