-- ==== Sys2Proof/Config.lean ====
section
/-! DEFINITION. What an implementation fixes (spec/00_scope.md R6) and the free values the spec draws
(spec/93_implementation_defined.md K1, K2, K4).  The constants without a body are uninterpreted: a
statement holds for every value of them. -/

namespace Sys2Proof.Config

/-- The parameters of R6 that have a default.  They are fixed for one machine; the state carries them so
that a statement over all states is a statement over all parameters (assumption 4). -/
structure Params where
  /-- `IBUF_SIZE`, bytes in the input buffer. -/
  ibufSize : Nat
  /-- `OBUF_SIZE`, bytes in the output buffer. -/
  obufSize : Nat
  /-- `BLOCK_ID`, the value of the `ID` register. -/
  blockId : Word
  deriving DecidableEq, Repr

/-- The defaults of R6 and R3. -/
def Params.standard : Params := { ibufSize := 256, obufSize := 512, blockId := 0xB32C0700 }

/-- The constraints of R6: `20 <= IBUF_SIZE <= 4096` and
`max(8, ceil(8 * IBUF_SIZE / 5)) <= OBUF_SIZE <= 4096`. -/
abbrev Params.Ok (p : Params) : Prop :=
  20 ≤ p.ibufSize ∧ p.ibufSize ≤ 4096 ∧ 8 ≤ p.obufSize ∧ (8 * p.ibufSize + 4) / 5 ≤ p.obufSize ∧
    p.obufSize ≤ 4096

/-- FREE VALUE (assumption 2).  `LAT(op, ilen) - 1` of R6: the cycles beyond the first that a command
takes, a function of the opcode and of `ILEN.LEN` only (R220). -/
opaque latExtra : BitVec 8 → BitVec 16 → Nat

/-- `LAT(op, ilen)` of R6, at least 1 by its form. -/
def lat (op : BitVec 8) (ilen : BitVec 16) : Nat := latExtra op ilen + 1

/-- FREE VALUE (assumption 3).  The `n`-th draw of `any_u8` (R11, K1, K2, K4). -/
opaque anyU8 : Nat → BitVec 8

/-- FREE VALUE (assumption 3).  The `n`-th draw for `OLEN.LEN` or `ERRPOS.POS` while busy (K1). -/
opaque anyU16 : Nat → BitVec 16

/-- FREE VALUE (assumption 3).  The `n`-th draw for `CODEVAL` while busy (K1). -/
opaque anyU20 : Nat → BitVec 20

/-- FREE VALUE (assumption 3).  The `n`-th draw for `TRUNC` while busy (K1). -/
opaque anyU31 : Nat → BitVec 31

/-- FREE VALUE (assumption 19).  `BLOCK_BASE / 0x4000` of R6 and R62. -/
opaque blockBaseIndex : Nat

end Sys2Proof.Config
end

