-- ==== Sys2Proof/Machine/State.lean ====
section
/-! DEFINITION. The state of the block and of what stands around it, as plain data (spec/10_state.md),
the reasons a step can stop, and the state after reset (R48, R211). -/

namespace Sys2Proof.Machine

/-- The error codes of `STATUS.ERRCODE` (spec/60_exceptions.md R184).  Codes 4 to 255 are never
reported, so they are no value of this type. -/
inductive ErrCode where
  /-- 0 `NONE`. -/
  | none
  /-- 1 `INVALID_CHARACTER`, raised by `B32DEC` (R107). -/
  | invalidCharacter
  /-- 2 `ILLEGAL_COMMAND`, raised by any illegal word (R86). -/
  | illegalCommand
  /-- 3 `BAD_LENGTH`, raised by `B32ENC`, `B32DEC`, `HOTPTRUNC` and `TRUNCCMP`. -/
  | badLength
  deriving DecidableEq, Repr

/-- The fields of `STATUS` (R25) that are stored.  `BUSY` is not among them: it is 1 exactly while the
command latch holds a command (R26, R46; assumption 5). -/
structure Status where
  /-- `DONE`, bit [1], R27. -/
  done : Bool
  /-- `ERR`, bit [2], R28. -/
  err : Bool
  /-- `HAZ`, bit [3], R29. -/
  haz : Bool
  /-- `MATCH`, bit [4], R30. -/
  matched : Bool
  /-- `LENMIS`, bit [5], R30. -/
  lenmis : Bool
  /-- `ERRCODE`, bits [15:8], R28 and R184. -/
  errcode : ErrCode
  deriving DecidableEq, Repr

/-- The command latch of R46 with the cycles that remain before the completion is due (R182,
assumption 2). -/
structure Latch where
  /-- The accepted command word. -/
  word : Word
  /-- Host slots (clock cycles) still to pass before the completion; 0 means it is the next event. -/
  wait : Nat
  deriving DecidableEq, Repr

/-- The registers of the block window (spec/10_state.md section 2), and the reserved word offsets. -/
inductive Reg where
  | id | ctrl | cmd | status | ilen | olen | errpos | ctrLo | ctrHi | trunc | codeval | candlen | reserved
  deriving DecidableEq, Repr

/-- The four buffers (R40 to R43). -/
inductive Buffer where
  | ibuf | obuf | expected | candidate
  deriving DecidableEq, Repr

/-- What an admitted host access reaches (spec/20_memory.md R61). -/
inductive Target where
  /-- A register or a reserved register offset. -/
  | reg (r : Reg)
  /-- The byte of a buffer at this block offset. -/
  | byte (b : Buffer) (addr : Nat)
  /-- One of the reserved bytes 0x106, 0x107, 0x10E, 0x10F. -/
  | reservedByte
  deriving DecidableEq, Repr

/-- One slot of the host's behaviour at the block's port, in arrival order (spec/30_encoding.md R88;
assumption 1).  `W32`, `R32`, `W8` and `R8` are `write` and `read` of width 4 and 1. -/
inductive HostOp where
  /-- A clock cycle in which no access arrives. -/
  | idle
  /-- `MemRead(off, width)`. -/
  | read (off : Offset) (width : Nat)
  /-- `MemWrite(off, width, value)`; a byte write takes the low eight bits of `value`. -/
  | write (off : Offset) (width : Nat) (value : Word)
  /-- `BIT1`: read the register at `off` and go on at script line `target` when bit `bit` is 1
  (a bit number of 32 or more: assumption 29). -/
  | bit1 (target : Nat) (off : Offset) (bit : Nat)
  /-- The platform asserts the reset input (spec/70_reset_and_hazards.md R210). -/
  | reset
  deriving DecidableEq, Repr

/-- The bus's answer to the last admitted host access (assumption 14). -/
inductive BusResponse where
  /-- No access has been answered since reset. -/
  | none
  /-- A write was taken (stored, dropped or ignored). -/
  | ack
  /-- The value of a 32-bit read. -/
  | word (v : Word)
  /-- The value of an 8-bit read. -/
  | byte (v : Byte)
  deriving DecidableEq, Repr

/-- The buffer bytes that have a value, by block offset, in strictly rising order of offset.  An offset
that is not listed has no value (R35). -/
abbrev Memory := List Host.Cell

/-- The whole state (INVENTORY.md, '## State'). -/
structure State where
  /-- The parameters of R6; no step changes them (assumption 4). -/
  cfg : Config.Params
  /-- `CTRL.IE`, R23. -/
  ctrlIe : Bool
  /-- The stored fields of `STATUS`, R25. -/
  status : Status
  /-- `ILEN.LEN`, R31. -/
  ilen : BitVec 16
  /-- `OLEN.LEN`, R32. -/
  olen : BitVec 16
  /-- `ERRPOS.POS`, R33. -/
  errpos : BitVec 16
  /-- `CTR_LO`, R34. -/
  ctrLo : Word
  /-- `CTR_HI`, R34. -/
  ctrHi : Word
  /-- `TRUNC[30:0]`, R37. -/
  trunc : BitVec 31
  /-- `CODEVAL[19:0]`, R38. -/
  codeval : BitVec 20
  /-- `CANDLEN.LEN`, R39. -/
  candlen : BitVec 8
  /-- The bytes of `IBUF`, `OBUF`, `EXP` and `CAND` that have a value, R35 and R40 to R43. -/
  mem : Memory
  /-- The command latch, R46; it holds a command exactly while `BUSY` = 1. -/
  latch : Option Latch
  /-- The model's own: the host's accesses in arrival order (assumption 1). -/
  script : List HostOp
  /-- The model's own: the host's position in `script`. -/
  hpc : Nat
  /-- The model's own: the answer to the last host access (assumption 14). -/
  resp : BusResponse
  /-- The model's own: how many free values have been drawn (assumption 3). -/
  draws : Nat
  deriving DecidableEq, Repr

/-- Why the machine stops. -/
inductive Fault where
  /-- Raised by `State.hostStep` for a host access that R64 refuses: the bus error `BusError(off)` of R65,
  a fault of the host agent.  SAFE: nothing is claimed beyond it. -/
  | busError (off : Offset)
  /-- Raised by the meanings of `B32ENC`, `B32DEC`, `HOTPTRUNC`, `CTCMP` and `TRUNCCMP`: the command reads
  the buffer byte at this block offset and it has no value (R35).  SAFE: nothing is claimed beyond it. -/
  | unwrittenRead (addr : Nat)
  deriving DecidableEq, Repr

/-- Why the model gives no meaning. -/
inductive Refusal where
  /-- Raised only by an arm of `exec` whose instruction has no meaning yet; no arm is one.  SAFE. -/
  | notModelled (mnemonic : String)
  deriving DecidableEq, Repr

/-- `STATUS` after reset: every field 0 (R25, R48). -/
def Status.reset : Status :=
  { done := false, err := false, haz := false, matched := false, lenmis := false, errcode := .none }

/-- The machine right after reset, for given parameters (R48, R211): every register 0, no buffer byte has
a value, the latch is empty, and the host has nothing to do. -/
def State.resetWith (p : Config.Params) : State :=
  { cfg := p
    ctrlIe := false
    status := Status.reset
    ilen := 0
    olen := 0
    errpos := 0
    ctrLo := 0
    ctrHi := 0
    trunc := 0
    codeval := 0
    candlen := 0
    mem := []
    latch := none
    script := []
    hpc := 0
    resp := .none
    draws := 0 }

/-- The machine right after reset, with the default parameters of R6. -/
def State.reset : State := State.resetWith Config.Params.standard

end Sys2Proof.Machine
end

