-- ==== Sys2Proof/Machine/Flags.lean ====
section
/-! DEFINITION. Every computation of the `STATUS` register and of the interrupt output
(spec/10_state.md R25 to R30, R47; spec/60_exceptions.md R180 to R184, R188). -/

namespace Sys2Proof.Machine

/-- The number of an error code (R184). -/
def ErrCode.code : ErrCode → BitVec 8
  | .none => 0
  | .invalidCharacter => 1
  | .illegalCommand => 2
  | .badLength => 3

/-- `STATUS` after an acceptance: `DONE`, `ERR`, `ERRCODE`, `MATCH` and `LENMIS` are cleared and `HAZ` is
left (R180). -/
def Status.accepted (t : Status) : Status :=
  { done := false, err := false, haz := t.haz, matched := false, lenmis := false, errcode := .none }

/-- `STATUS` after a completion without error: `DONE` is set and `HAZ` is left (R182, R28); `MATCH` and
`LENMIS` are the compare's result, and 0 for a command that compares nothing (R30). -/
def Status.completed (t : Status) (matched lenmis : Bool) : Status :=
  { done := true, err := false, haz := t.haz, matched := matched, lenmis := lenmis, errcode := .none }

/-- `STATUS` after a completion with error: `ERRCODE` is the code and `ERR` is set (R183). -/
def Status.failed (t : Status) (code : ErrCode) : Status :=
  { done := true, err := true, haz := t.haz, matched := false, lenmis := false, errcode := code }

/-- `STATUS` after a host write of `v`: bit [1] clears `DONE`, bit [3] clears `HAZ`, every other bit is
ignored (R25). -/
def Status.written (t : Status) (v : Word) : Status :=
  { t with done := t.done && !v.getLsbD 1, haz := t.haz && !v.getLsbD 3 }

/-- `STATUS` after a dropped write: `HAZ` is set (R29). -/
def Status.hazard (t : Status) : Status := { t with haz := true }

/-- The 32 bits a read of `STATUS` returns (the layout of R25; reserved bits are 0). -/
def Status.word (t : Status) (busy : Bool) : Word :=
  (0 : BitVec 16) ++ t.errcode.code ++ (0 : BitVec 2) ++ BitVec.ofBool t.lenmis ++ BitVec.ofBool t.matched ++
    BitVec.ofBool t.haz ++ BitVec.ofBool t.err ++ BitVec.ofBool t.done ++ BitVec.ofBool busy

/-- `STATUS.BUSY`: the latch holds a command (R26, R46). -/
def State.busy (s : State) : Bool := s.latch.isSome

/-- The value a read of `STATUS` returns, true at all times (R36). -/
def State.statusWord (s : State) : Word := s.status.word s.busy

/-- The interrupt output `IRQ = STATUS.DONE & CTRL.IE` (R47, R188). -/
def State.irq (s : State) : Bool := s.status.done && s.ctrlIe

/-- The comparator's accumulator: the bytes' differences, combined with OR over every pair of bytes
(R150); it never stops early (R152). -/
def diffAcc : List Byte → List Byte → Byte
  | e :: es, c :: cs => (e ^^^ c) ||| diffAcc es cs
  | _, _ => 0

/-- `acc = 0`: the expected and the candidate bytes are equal (R150, R151). -/
def codesEqual (expected candidate : List Byte) : Bool := diffAcc expected candidate == 0

end Sys2Proof.Machine
end

