-- ==== Sys2Proof/Machine/Ops.lean ====
section
/-! DEFINITION. The named operations over bits, memory and registers that the meanings share: packing
bits, reading and writing buffer bytes, drawing free values, accepting a command, completing it with and
without an error (spec/00_scope.md R10, R11; spec/60_exceptions.md R180 to R183, R186). -/

namespace Sys2Proof.Machine

/-! ### Bits -/

/-- `n` bits packed most significant first, `f 0` the most significant: `v <- (v << 1) | f k` for `k` in
`0 .. n-1` (R102, R104). -/
def packMsb (f : Nat → Bool) : (n : Nat) → BitVec n
  | 0 => 0
  | n + 1 => (packMsb f n).concat (f n)

/-- Bit number `i` of the bit stream of a byte sequence: `(b[i div 8] >> (7 - (i mod 8))) & 1` (R10).
Beyond the end of the sequence the bit is 0, the right zero pad of R102. -/
def byteStreamBit (bs : List Byte) (i : Nat) : Bool := (bs.getD (i / 8) 0).getMsbD (i % 8)

/-- Bit number `i` of a symbol stream: `(v[i div 5] >> (4 - (i mod 5))) & 1` (R104). -/
def symbolStreamBit (vs : List Symbol) (i : Nat) : Bool := (vs.getD (i / 5) 0).getMsbD (i % 5)

/-! ### Memory: the buffer bytes by block offset -/

/-- The byte at a block offset, or no value (R35). -/
def Memory.read : Memory → Nat → Option Byte
  | [], _ => none
  | (a, b) :: m, addr => if a = addr then some b else Memory.read m addr

/-- Give the byte at a block offset a value (R35), keeping the list in rising order. -/
def Memory.write : Memory → Nat → Byte → Memory
  | [], addr, v => [(addr, v)]
  | (a, b) :: m, addr, v =>
    if addr < a then (addr, v) :: (a, b) :: m
    else if addr = a then (addr, v) :: m
    else (a, b) :: Memory.write m addr v

/-- Write a byte sequence to consecutive offsets, element 0 at the lowest (R67). -/
def Memory.writeBytes (m : Memory) (addr : Nat) : List Byte → Memory
  | [] => m
  | v :: vs => (Memory.writeBytes m (addr + 1) vs).write addr v

/-- Every offset of the list lies above `lo`, in strictly rising order. -/
def Memory.risingFrom (lo : Nat) : Memory → Bool
  | [] => true
  | (a, _) :: m => decide (lo ≤ a) && Memory.risingFrom (a + 1) m

/-- The canonical form: offsets strictly rising.  No listed byte can equal what an unlisted offset reads
as, since that is no value. -/
def Memory.wf (m : Memory) : Bool := Memory.risingFrom 0 m

/-- Read `n` bytes from consecutive offsets; the first that has no value is the fault `UnwrittenRead`
(R35). -/
def Memory.readBytes (m : Memory) (addr : Nat) : Nat → Except Fault (List Byte)
  | 0 => .ok []
  | n + 1 =>
    match m.read addr with
    | none => .error (.unwrittenRead addr)
    | some v =>
      match Memory.readBytes m (addr + 1) n with
      | .error e => .error e
      | .ok vs => .ok (v :: vs)

/-- Block offset of `EXP[0]` (R42). -/
def expBase : Nat := 0x100

/-- Block offset of `CAND[0]` (R43). -/
def candBase : Nat := 0x108

/-- Block offset of `IBUF[0]` (R40). -/
def ibufBase : Nat := 0x1000

/-- Block offset of `OBUF[0]` (R41). -/
def obufBase : Nat := 0x2000

/-- Write a byte sequence at consecutive block offsets. -/
def State.writeAt (s : State) (addr : Nat) (vs : List Byte) : State :=
  { s with mem := s.mem.writeBytes addr vs }

/-- Go on with bytes that were read, or stop with the fault their reading met. -/
def onBytes {α : Type} (r : Except Fault α) (k : α → Host.Outcome State Fault Refusal) :
    Host.Outcome State Fault Refusal :=
  match r with
  | .error e => .fault e
  | .ok a => k a

/-! ### Free values -/

/-- `k` free bytes, one draw each (R186, K4). -/
def freeBytes (start k : Nat) : List Byte := (List.range k).map fun j => Config.anyU8 (start + j)

/-- Fill `k` bytes from a block offset with free values (R186). -/
def State.drawBytes (s : State) (addr k : Nat) : State :=
  { s with mem := s.mem.writeBytes addr (freeBytes s.draws k), draws := s.draws + k }

/-! ### The life of a command -/

/-- Acceptance of the command word `v` (R180): the word is latched, `BUSY` becomes 1, the fields of R180
are cleared, nothing else changes.  The completion is due after `LAT(op, ILEN.LEN)` cycles (R182). -/
def State.accept (s : State) (v : Word) : State :=
  { s with
    status := s.status.accepted
    latch := some { word := v, wait := Config.latExtra (opcOf v) s.ilen } }

/-- Completion without error (R182): `OLEN`, `ERRPOS <- 0`, `MATCH`, `LENMIS`, then `BUSY <- 0` and
`DONE <- 1`. -/
def State.finish (s : State) (olen : Nat) (matched lenmis : Bool) : State :=
  { s with
    olen := BitVec.ofNat 16 olen
    errpos := 0
    status := s.status.completed matched lenmis
    latch := none }

/-- `complete()` of a command that compares nothing (R11, R182). -/
def State.complete (s : State) (olen : Nat) : State := s.finish olen false false

/-- `raise BlockError(code, pos)` (R183), the block's one way to report an error: a completion with
`OLEN <- 0`, `ERRPOS <- pos`, `ERRCODE <- code`, `ERR <- 1`.  Nothing is saved and no mode changes
(R187), so there is no return to model beside it: the host clears `DONE` (R189). -/
def State.blockError (s : State) (code : ErrCode) (pos : Nat) : State :=
  { s with
    olen := 0
    errpos := BitVec.ofNat 16 pos
    status := s.status.failed code
    latch := none }

end Sys2Proof.Machine
end

