-- ==== Sys2Proof/Machine/Bus.lean ====
section
/-! DEFINITION. The host's side of the block: the address map, admitted and refused accesses, their
effects, and one slot of the host's script (spec/20_memory.md R60 to R71; spec/10_state.md R22 to R49;
spec/60_exceptions.md R180, R181, R191, R192; spec/70_reset_and_hazards.md R210 to R212). -/

namespace Sys2Proof.Machine

/-- The platform address of a block offset: `BLOCK_BASE + off` (R60, R62). -/
def platformAddress (off : Offset) : Nat := 0x4000 * Config.blockBaseIndex + off.toNat

/-- The register at an aligned offset below 0x100 (the table of spec/10_state.md section 2). -/
def regAt (off : Nat) : Reg :=
  match off / 4 with
  | 0 => .id
  | 1 => .ctrl
  | 2 => .cmd
  | 3 => .status
  | 4 => .ilen
  | 5 => .olen
  | 6 => .errpos
  | 7 => .ctrLo
  | 8 => .ctrHi
  | 9 => .trunc
  | 10 => .codeval
  | 11 => .candlen
  | _ => .reserved

/-- The byte-window target at an offset, if the map of R61 has one there. -/
def byteTarget (p : Config.Params) (o : Nat) : Option Target :=
  if 0x100 ≤ o ∧ o < 0x106 then some (.byte .expected o)
  else if 0x108 ≤ o ∧ o < 0x10E then some (.byte .candidate o)
  else if 0x106 ≤ o ∧ o < 0x110 then some .reservedByte
  else if 0x1000 ≤ o ∧ o < 0x1000 + p.ibufSize then some (.byte .ibuf o)
  else if 0x2000 ≤ o ∧ o < 0x2000 + p.obufSize then some (.byte .obuf o)
  else none

/-- The width and alignment rule of R64: what an access of `width` bytes at `off` reaches, or nothing when
it is refused. -/
def accessTarget (p : Config.Params) (off : Offset) (width : Nat) : Option Target :=
  if off.toNat < 0x100 then
    if width = 4 ∧ off.toNat % 4 = 0 then some (.reg (regAt off.toNat)) else none
  else if width = 1 then byteTarget p off.toNat
  else none

/-- The buffers that are result state (R36): reads of them while busy are draws. -/
def Buffer.isResult : Buffer → Bool
  | .ibuf => false
  | .obuf => true
  | .expected => true
  | .candidate => false

/-- The true 32-bit value of a register (R22 to R39, R49): reserved bits read 0, `CMD` reads 0. -/
def State.regValue (s : State) : Reg → Word
  | .id => s.cfg.blockId
  | .ctrl => (BitVec.ofBool s.ctrlIe).setWidth 32
  | .cmd => 0
  | .status => s.statusWord
  | .ilen => s.ilen.setWidth 32
  | .olen => s.olen.setWidth 32
  | .errpos => s.errpos.setWidth 32
  | .ctrLo => s.ctrLo
  | .ctrHi => s.ctrHi
  | .trunc => s.trunc.setWidth 32
  | .codeval => s.codeval.setWidth 32
  | .candlen => s.candlen.setWidth 32
  | .reserved => 0

/-- The value a read of a result register draws while busy, of the field's width (R36, R66, K1); `none`
for every register that reads true at all times. -/
def State.regDraw (s : State) : Reg → Option Word
  | .olen => some ((Config.anyU16 s.draws).setWidth 32)
  | .errpos => some ((Config.anyU16 s.draws).setWidth 32)
  | .trunc => some ((Config.anyU31 s.draws).setWidth 32)
  | .codeval => some ((Config.anyU20 s.draws).setWidth 32)
  | _ => none

/-- Answer a read with a value that was not drawn. -/
def State.respond (s : State) (r : BusResponse) : State := { s with resp := r }

/-- Answer a read with a drawn value; the draw changes nothing else (R69, K1, K2). -/
def State.respondDrawn (s : State) (r : BusResponse) : State := { s with resp := r, draws := s.draws + 1 }

/-- A 32-bit read of a register (R66). -/
def State.readReg (s : State) (r : Reg) : State :=
  match s.busy, s.regDraw r with
  | true, some v => s.respondDrawn (.word v)
  | _, _ => s.respond (.word (s.regValue r))

/-- An 8-bit read of a buffer byte (R66): a draw for `OBUF` and `EXP` while busy and for a byte with no
value. -/
def State.readByte (s : State) (b : Buffer) (addr : Nat) : State :=
  if s.busy && b.isResult then s.respondDrawn (.byte (Config.anyU8 s.draws))
  else
    match s.mem.read addr with
    | some v => s.respond (.byte v)
    | none => s.respondDrawn (.byte (Config.anyU8 s.draws))

/-- The effect of an admitted read (R66). -/
def State.busRead (s : State) : Target → State
  | .reg r => s.readReg r
  | .byte b addr => s.readByte b addr
  | .reservedByte => s.respond (.byte 0)

/-- A write dropped because the engine is busy: `HAZ <- 1` and nothing else (R181, R191). -/
def State.drop (s : State) : State := { s with status := s.status.hazard }

/-- A write to input state: dropped while busy, otherwise it takes effect (R36, R66, R191). -/
def State.inputWrite (s : State) (effect : State) : State := if s.busy then s.drop else effect

/-- A 32-bit write of `v` to a register (R22 to R39, R49). -/
def State.writeReg (s : State) (v : Word) : Reg → State
  | .id => s
  | .ctrl => { s with ctrlIe := v.getLsbD 0 }
  | .cmd => s.inputWrite (s.accept v)
  | .status => { s with status := s.status.written v }
  | .ilen => s.inputWrite { s with ilen := v.setWidth 16 }
  | .olen => s
  | .errpos => s
  | .ctrLo => s.inputWrite { s with ctrLo := v }
  | .ctrHi => s.inputWrite { s with ctrHi := v }
  | .trunc => s
  | .codeval => s
  | .candlen => s.inputWrite { s with candlen := v.setWidth 8 }
  | .reserved => s

/-- An 8-bit write of `v` to a buffer byte: `OBUF` ignores it (R41, R66). -/
def State.writeByte (s : State) (v : Byte) (b : Buffer) (addr : Nat) : State :=
  match b with
  | .obuf => s
  | .ibuf => s.inputWrite { s with mem := s.mem.write addr v }
  | .expected => s.inputWrite { s with mem := s.mem.write addr v }
  | .candidate => s.inputWrite { s with mem := s.mem.write addr v }

/-- The effect of an admitted write (R66); it is acknowledged whether it was stored, dropped or ignored. -/
def State.busWrite (s : State) (v : Word) : Target → State
  | .reg r => (s.writeReg v r).respond .ack
  | .byte b addr => (s.writeByte (v.setWidth 8) b addr).respond .ack
  | .reservedByte => s.respond .ack

/-- One clock cycle of a running command passes (R182). -/
def State.tick (s : State) : State :=
  { s with latch := s.latch.map fun l => { l with wait := l.wait - 1 } }

/-- The host goes on at script line `line`. -/
def State.goto (s : State) (line : Nat) : State := { s with hpc := line }

/-- The reset input (R211, R212): the block takes its reset state, abandoning a running command.  The
parameters and the host's script are not the block's to reset. -/
def State.applyReset (s : State) : State :=
  { State.resetWith s.cfg with script := s.script, hpc := s.hpc, draws := s.draws }

/-- Bit `bit` of the word a 32-bit read has just answered (`BIT1`, R88).  R88 gives no meaning to a bit number
of 32 or more: DESIGN CHOICE (assumption 29), such a bit reads 0, so the host goes on at the next line. -/
def BusResponse.bitSet (r : BusResponse) (bit : Nat) : Bool :=
  match r with
  | .word v => v.getLsbD bit
  | _ => false

/-- The host's next slot; past the end of the script the host does nothing more. -/
def State.nextOp (s : State) : Option HostOp := s.script[s.hpc]?

/-- The latched word when a completion is the next event: its cycles have passed and no reset is asserted
in this cycle (R182, R185, R212). -/
def State.completing (s : State) : Option Word :=
  match s.latch with
  | none => none
  | some l => if l.wait = 0 ∧ s.nextOp ≠ some .reset then some l.word else none

/-- One slot of the host (R63 to R66, R70, R88): an admitted access takes effect whole; a refused one is
the bus error (R65). -/
def State.hostStep (s : State) : Host.Outcome State Fault Refusal :=
  match s.nextOp with
  | none => .next s.tick
  | some .idle => .next (s.tick.goto (s.hpc + 1))
  | some (.read off width) =>
    match accessTarget s.cfg off width with
    | none => .fault (.busError off)
    | some t => .next ((s.tick.busRead t).goto (s.hpc + 1))
  | some (.write off width v) =>
    match accessTarget s.cfg off width with
    | none => .fault (.busError off)
    | some t => .next ((s.tick.busWrite v t).goto (s.hpc + 1))
  | some (.bit1 target off bit) =>
    match accessTarget s.cfg off 4 with
    | none => .fault (.busError off)
    | some t =>
      .next ((s.tick.busRead t).goto (if (s.tick.busRead t).resp.bitSet bit then target else s.hpc + 1))
  | some .reset => .next (s.applyReset.goto (s.hpc + 1))

/-- The first script line at or after the host's position that is not a reset. -/
def State.lineAfterResets (s : State) : Nat :=
  s.hpc + ((s.script.drop s.hpc).takeWhile fun o => decide (o = .reset)).length

/-- `s` with the command word `v` accepted and its completion due at once (assumption 12). -/
def State.dueCommand (s : State) (v : Word) : State :=
  { s.accept v with latch := some { word := v, wait := 0 }, hpc := s.lineAfterResets }

end Sys2Proof.Machine
end

