-- ==== Sys2Proof/Machine/Operands.lean ====
section
/-! DEFINITION. The implicit operands of the commands (spec/30_encoding.md R82). -/

namespace Sys2Proof.Machine

/-- The input length: `ILEN.LEN` as a natural number. -/
def State.inputLen (s : State) : Nat := s.ilen.toNat

/-- The input bytes `IBUF[0 .. ILEN.LEN - 1]`. -/
def State.inputBytes (s : State) : Except Fault (List Byte) := s.mem.readBytes ibufBase s.inputLen

/-- The counter `CTR_HI ++ CTR_LO` (R34). -/
def State.counter (s : State) : BitVec 64 := s.ctrHi ++ s.ctrLo

/-- The digest `IBUF[0 .. 19]`; all 20 bytes are read (R132). -/
def State.digest (s : State) : Except Fault (List Byte) := s.mem.readBytes ibufBase 20

/-- The expected code `EXP[0 .. 5]`. -/
def State.expectedCode (s : State) : Except Fault (List Byte) := s.mem.readBytes expBase 6

/-- The candidate code `CAND[0 .. 5]`. -/
def State.candidateCode (s : State) : Except Fault (List Byte) := s.mem.readBytes candBase 6

/-- `CANDLEN.LEN = 6` (R154). -/
def State.lenOk (s : State) : Bool := s.candlen == 6

end Sys2Proof.Machine
end

