-- ==== Sys2Proof/Machine/Base32.lean ====
section
/-! DEFINITION. The base32 codec and the meanings of `B32ENC` and `B32DEC` (spec/40_base32.md). -/

namespace Sys2Proof.Machine

/-- `ALPHA[v]` (R44, R100): `0x41 + v` for v in 0..25, `0x32 + (v - 26)` for v in 26..31. -/
def alpha (v : Symbol) : Byte :=
  if v.toNat < 26 then BitVec.ofNat 8 (0x41 + v.toNat) else BitVec.ofNat 8 (0x32 + (v.toNat - 26))

/-- `INV[c]` (R45, R101), with `none` for `INVALID`: total over all bytes. -/
def inv (c : Byte) : Option Symbol :=
  if 0x41 ≤ c.toNat ∧ c.toNat ≤ 0x5A then some (BitVec.ofNat 5 (c.toNat - 0x41))
  else if 0x32 ≤ c.toNat ∧ c.toNat ≤ 0x37 then some (BitVec.ofNat 5 (c.toNat - 0x32 + 26))
  else none

/-- The encode length law `L = ceil(8n / 5)` (R103). -/
def encodedLen (n : Nat) : Nat := (8 * n + 4) / 5

/-- Symbol `j` of the encoding: bits `5j .. 5j+4` of the stream, zero padded on the right (R102). -/
def encodedSymbol (bs : List Byte) (j : Nat) : Symbol := packMsb (fun k => byteStreamBit bs (5 * j + k)) 5

/-- The base32 text of a byte sequence (R102). -/
def base32Encode (bs : List Byte) : List Byte :=
  (List.range (encodedLen bs.length)).map fun j => alpha (encodedSymbol bs j)

/-- Case folding (R105): only `a`..`z` change. -/
def foldCase (c : Byte) : Byte := if 0x61 ≤ c.toNat ∧ c.toNat ≤ 0x7A then c - 0x20 else c

/-- The kept characters of a text with their indices, the first of the text having index `i`: each is
folded (R105) and `=` is removed (R106). -/
def keptFrom (i : Nat) : List Byte → List (Nat × Byte)
  | [] => []
  | c :: cs =>
    if foldCase c = 0x3D then keptFrom (i + 1) cs else (i, foldCase c) :: keptFrom (i + 1) cs

/-- The kept characters of the text in `IBUF` (R104). -/
def kept (text : List Byte) : List (Nat × Byte) := keptFrom 0 text

/-- The index of the first kept character that is not in the alphabet (R107). -/
def firstInvalid : List (Nat × Byte) → Option Nat
  | [] => none
  | (i, c) :: ks =>
    match inv c with
    | none => some i
    | some _ => firstInvalid ks

/-- The symbol values of kept characters that are all in the alphabet (R104). -/
def symbolValues (ks : List (Nat × Byte)) : List Symbol := ks.map fun k => (inv k.2).getD 0

/-- The decode length law `K = floor(5m / 8)` (R108). -/
def decodedLen (m : Nat) : Nat := 5 * m / 8

/-- Byte `k` of the decoding: bits `8k .. 8k+7` of the symbol stream (R104). -/
def decodedByte (vs : List Symbol) (k : Nat) : Byte := packMsb (fun t => symbolStreamBit vs (8 * k + t)) 8

/-- The bytes of a symbol sequence; trailing bits beyond the last whole byte are dropped (R104, R110). -/
def base32Decode (vs : List Symbol) : List Byte := (List.range (decodedLen vs.length)).map (decodedByte vs)

/-- `B32ENC` (R102). -/
def execB32enc (s : State) : Host.Outcome State Fault Refusal :=
  if s.cfg.ibufSize < s.inputLen then .next (s.blockError .badLength 0)
  else onBytes s.inputBytes fun bs =>
    .next ((s.writeAt obufBase (base32Encode bs)).complete (encodedLen bs.length))

/-- The end of `B32DEC` once its text is read: an invalid character ends the command with free output
bytes (R107, R186); otherwise the decoded bytes are written (R104). -/
def State.decodeText (s : State) (text : List Byte) : State :=
  match firstInvalid (kept text) with
  | some i => (s.drawBytes obufBase (decodedLen (kept text).length)).blockError .invalidCharacter i
  | none =>
    (s.writeAt obufBase (base32Decode (symbolValues (kept text)))).complete (decodedLen (kept text).length)

/-- `B32DEC` (R104). -/
def execB32dec (s : State) : Host.Outcome State Fault Refusal :=
  if s.cfg.ibufSize < s.inputLen then .next (s.blockError .badLength 0)
  else onBytes s.inputBytes fun text => .next (s.decodeText text)

end Sys2Proof.Machine
end

