-- ==== Sys2Proof/Machine/Hotp.lean ====
section
/-! DEFINITION. Counter serialisation and dynamic truncation: the meanings of `CTRSER` and `HOTPTRUNC`
(spec/41_hotp.md). -/

namespace Sys2Proof.Machine

/-- The counter as 8 big-endian bytes: byte `i` is `c[63 - 8*i : 56 - 8*i]` (R130). -/
def counterBytes (c : BitVec 64) : List Byte :=
  (List.range 8).map fun i => c.extractLsb' (56 - 8 * i) 8

/-- `CTRSER` (R130). -/
def execCtrser (s : State) : Host.Outcome State Fault Refusal :=
  .next ((s.writeAt obufBase (counterBytes s.counter)).complete 8)

/-- Byte `i` of a digest. -/
def digestByte (d : List Byte) (i : Nat) : Byte := d.getD i 0

/-- The offset `d[19] & 0x0F` (R133). -/
def truncOffset (d : List Byte) : Nat := (digestByte d 19 &&& 0x0F).toNat

/-- The truncated value `p` (R132, R134): the four selected bytes, big-endian, the top bit of the first
cleared. -/
def truncValue (d : List Byte) : BitVec 31 :=
  ((digestByte d (truncOffset d)).setWidth 7 ++ digestByte d (truncOffset d + 1) ++
    digestByte d (truncOffset d + 2) ++ digestByte d (truncOffset d + 3) : BitVec (7 + 8 + 8 + 8))

/-- The code `p mod 1000000` (R135). -/
def codeOf (p : BitVec 31) : Nat := p.toNat % 1000000

/-- Digit byte `k` of a code, most significant first: `0x30 + ((code div 10^(5-k)) mod 10)` (R136). -/
def digitByte (code k : Nat) : Byte := BitVec.ofNat 8 (0x30 + code / 10 ^ (5 - k) % 10)

/-- The six digit bytes of a code (R136). -/
def codeDigits (code : Nat) : List Byte := (List.range 6).map (digitByte code)

/-- The body of `HOTPTRUNC` up to and excluding `complete()`, on a digest that has been read (R132). -/
def State.truncate (s : State) (d : List Byte) : State :=
  { (s.writeAt obufBase (codeDigits (codeOf (truncValue d)))).writeAt expBase
      (codeDigits (codeOf (truncValue d))) with
    trunc := truncValue d
    codeval := BitVec.ofNat 20 (codeOf (truncValue d)) }

/-- `HOTPTRUNC` (R132). -/
def execHotptrunc (s : State) : Host.Outcome State Fault Refusal :=
  if s.inputLen = 20 then onBytes s.digest fun d => .next ((s.truncate d).complete 6)
  else .next (s.blockError .badLength 0)

end Sys2Proof.Machine
end

