-- ==== Sys2Proof/Machine/Compare.lean ====
section
/-! DEFINITION. The comparator: the meanings of `CTCMP` and `TRUNCCMP` (spec/42_compare.md). -/

namespace Sys2Proof.Machine

/-- Compare `EXP` with `CAND` and complete (R150, R154).  With `CANDLEN != 6` the bytes affect no result,
so a byte without a value is then no fault (R150). -/
def State.compare (s : State) (olen : Nat) : Host.Outcome State Fault Refusal :=
  if s.lenOk then
    onBytes s.expectedCode fun e =>
      onBytes s.candidateCode fun c => .next (s.finish olen (codesEqual e c) false)
  else .next (s.finish olen false true)

/-- `CTCMP` (R150). -/
def execCtcmp (s : State) : Host.Outcome State Fault Refusal := s.compare 0

/-- `TRUNCCMP` (R153): the body of `HOTPTRUNC`, then the compare with `EXP` as just written. -/
def execTrunccmp (s : State) : Host.Outcome State Fault Refusal :=
  if s.inputLen = 20 then onBytes s.digest fun d => (s.truncate d).compare 6
  else .next (s.blockError .badLength 0)

end Sys2Proof.Machine
end

