-- ==== Sys2Proof/Machine/Control.lean ====
section
/-! DEFINITION. The control commands: the meanings of `NOP`, `ZEROIZE` and of an illegal command
(spec/43_control.md). -/

namespace Sys2Proof.Machine

/-- `NOP` (R170). -/
def execNop (s : State) : Host.Outcome State Fault Refusal := .next (s.complete 0)

/-- Every byte of the four buffers set to 0x00 (R171). -/
def State.zeroBuffers (s : State) : State :=
  (((s.writeAt obufBase (List.replicate s.cfg.obufSize 0)).writeAt ibufBase
    (List.replicate s.cfg.ibufSize 0)).writeAt candBase (List.replicate 6 0)).writeAt expBase
    (List.replicate 6 0)

/-- Every data register set to 0 (R171). -/
def State.zeroRegisters (s : State) : State :=
  { s with ilen := 0, ctrLo := 0, ctrHi := 0, candlen := 0, trunc := 0, codeval := 0 }

/-- `ZEROIZE` (R171). -/
def execZeroize (s : State) : Host.Outcome State Fault Refusal :=
  .next (s.zeroBuffers.zeroRegisters.complete 0)

/-- An illegal command (R172): it reads no input state, writes no data state and ends with
`BlockError(ILLEGAL_COMMAND, 0)` whatever its word. -/
def execIllegal (_w : Word) (s : State) : Host.Outcome State Fault Refusal :=
  .next (s.blockError .illegalCommand 0)

end Sys2Proof.Machine
end

