-- ==== Sys2Proof/Machine/Dispatch.lean ====
section
/-! DEFINITION. One arm per command: the completion step of that command (spec/60_exceptions.md R182). -/

namespace Sys2Proof.Machine

/-- What the engine does at the completion of a command. -/
def exec (i : Instr) (s : State) : Host.Outcome State Fault Refusal :=
  match i with
  | .nop => Sys2Proof.Machine.execNop s
  | .b32enc => Sys2Proof.Machine.execB32enc s
  | .b32dec => Sys2Proof.Machine.execB32dec s
  | .ctrser => Sys2Proof.Machine.execCtrser s
  | .hotptrunc => Sys2Proof.Machine.execHotptrunc s
  | .ctcmp => Sys2Proof.Machine.execCtcmp s
  | .trunccmp => Sys2Proof.Machine.execTrunccmp s
  | .zeroize => Sys2Proof.Machine.execZeroize s
  | .illegal w => Sys2Proof.Machine.execIllegal w s

end Sys2Proof.Machine
end

