-- ==== Sys2Proof/Machine/Step.lean ====
section
/-! DEFINITION. One step: the engine's completion when it is due, otherwise one slot of the host
(spec/60_exceptions.md R182, R185; spec/20_memory.md R70). -/

namespace Sys2Proof.Machine

/-- One step of the machine. -/
def step (s : State) : Host.Outcome State Fault Refusal :=
  match s.completing with
  | some w => exec (decode w) s
  | none => s.hostStep

/-- `s` with the instruction whose low `nbits` bits are `w` in the command latch, accepted and due, so
that the next step runs exactly it (R46, R180, R182; assumption 12). -/
def State.withFetchWord (s : State) (nbits w : Nat) : State :=
  s.dueCommand (BitVec.ofNat 32 (w % 2 ^ nbits))

end Sys2Proof.Machine
end

