-- ==== Sys2Proof/Machine/Script.lean ====
section
/-! DEFINITION. The host script syntax and its pseudo-operations, as an assembler into the host's slots
(spec/30_encoding.md R88, R89). -/

namespace Sys2Proof.Machine

/-- A line of a host script.  A label is a number. -/
inductive ScriptLine where
  /-- `W32`, `R32`, `W8`, `R8`, or a slot in which the host does nothing or the platform resets. -/
  | access (op : HostOp)
  /-- `<label>:` names the next line. -/
  | label (name : Nat)
  /-- `BIT1 <label>, <reg>, <bit>`. -/
  | bit1 (name : Nat) (off : Offset) (bit : Nat)
  /-- `CMD <mnemonic>`. -/
  | cmd (i : Instr)
  /-- `WAIT`. -/
  | wait
  /-- `RUN <mnemonic>`. -/
  | run (i : Instr)
  /-- `LDI`. -/
  | ldi (bs : List Byte)
  /-- `LDC`. -/
  | ldc (bs : List Byte)
  /-- `LDE`.  R89 says that the string must have 6 bytes and gives another length no meaning: DESIGN CHOICE
  (assumption 28), a shorter one writes the bytes it has and a longer one its first six. -/
  | lde (bs : List Byte)
  /-- `LDCTR`. -/
  | ldctr (n : BitVec 64)
  /-- `ACK`. -/
  | ack
  deriving DecidableEq, Repr

/-- `W32 off, v`. -/
def w32 (off : Offset) (v : Word) : HostOp := .write off 4 v

/-- `R32 off`. -/
def r32 (off : Offset) : HostOp := .read off 4

/-- `W8 off, v`. -/
def w8 (off : Nat) (v : Byte) : HostOp := .write (BitVec.ofNat 14 off) 1 (v.setWidth 32)

/-- `R8 off`. -/
def r8 (off : Nat) : HostOp := .read (BitVec.ofNat 14 off) 1

/-- One `W8` per byte, at consecutive offsets. -/
def w8s (off : Nat) : List Byte → List HostOp
  | [] => []
  | b :: bs => w8 off b :: w8s (off + 1) bs

/-- The polling line of `WAIT` at script line `at_`: `L: BIT1 L, STATUS, 0` (R89). -/
def waitOp (at_ : Nat) : HostOp := .bit1 at_ 0x00C 0

/-- `CMD <mnemonic>`: `W32 CMD, <word of R85>`. -/
def cmdOp (i : Instr) : HostOp := w32 0x008 (encode i)

/-- The expansion of one line that starts at script line `at_`, given where each label is (R88, R89). -/
def ScriptLine.expand (labelAt : Nat → Option Nat) (at_ : Nat) : ScriptLine → Option (List HostOp)
  | .access op => some [op]
  | .label _ => some []
  | .bit1 name off bit => (labelAt name).map fun l => [.bit1 l off bit]
  | .cmd i => some [cmdOp i]
  | .wait => some [waitOp at_]
  | .run i => some [cmdOp i, waitOp (at_ + 1)]
  | .ldi bs => some (w8s ibufBase bs ++ [w32 0x010 (BitVec.ofNat 32 bs.length)])
  | .ldc bs => some (w8s candBase (bs.take 6) ++ [w32 0x02C (BitVec.ofNat 32 bs.length)])
  | .lde bs => some (w8s expBase (bs.take 6))
  | .ldctr n => some [w32 0x01C (n.extractLsb' 0 32), w32 0x020 (n.extractLsb' 32 32)]
  | .ack => some [w32 0x00C 0x0000000A]

/-- How many host slots a line takes. -/
def ScriptLine.size : ScriptLine → Nat
  | .access _ => 1
  | .label _ => 0
  | .bit1 _ _ _ => 1
  | .cmd _ => 1
  | .wait => 1
  | .run _ => 2
  | .ldi bs => bs.length + 1
  | .ldc bs => (bs.take 6).length + 1
  | .lde bs => (bs.take 6).length
  | .ldctr _ => 2
  | .ack => 1

/-- The script line a label names, the first line of the text standing at line `at_` (R88). -/
def labelLine (at_ name : Nat) : List ScriptLine → Option Nat
  | [] => none
  | .label n :: ls => if n = name then some at_ else labelLine at_ name ls
  | l :: ls => labelLine (at_ + l.size) name ls

/-- The expansions of the lines of a text in order, its first line standing at line `at_`. -/
def expandFrom (labelAt : Nat → Option Nat) (at_ : Nat) : List ScriptLine → Option (List HostOp)
  | [] => some []
  | l :: ls =>
    match l.expand labelAt at_, expandFrom labelAt (at_ + l.size) ls with
    | some ops, some rest => some (ops ++ rest)
    | _, _ => none

/-- The host's slots of a script text; `none` when it branches to a label it does not define. -/
def assemble (text : List ScriptLine) : Option (List HostOp) :=
  expandFrom (fun name => labelLine 0 name text) 0 text

end Sys2Proof.Machine
end

