-- ==== Sys2Proof/Safety.lean ====
section
/-! DEFINITION. The terms the statements use: views of the buffers, what a frame leaves alone, and the
invariants of the machine. -/

namespace Sys2Proof.Machine

/-- `IBUF[i]`, or no value. -/
def State.ibufAt (s : State) (i : Nat) : Option Byte := s.mem.read (0x1000 + i)

/-- `OBUF[i]`, or no value. -/
def State.obufAt (s : State) (i : Nat) : Option Byte := s.mem.read (0x2000 + i)

/-- `EXP[k]`, or no value. -/
def State.expAt (s : State) (k : Nat) : Option Byte := s.mem.read (0x100 + k)

/-- `CAND[k]`, or no value. -/
def State.candAt (s : State) (k : Nat) : Option Byte := s.mem.read (0x108 + k)

/-- The buffer at block offset `base` holds the bytes `bs` from its start. -/
def State.Holds (s : State) (base : Nat) (bs : List Byte) : Prop :=
  ∀ i, (h : i < bs.length) → s.mem.read (base + i) = some bs[i]

/-- Every byte outside the `n` bytes at `base` reads in `m'` as it does in `m`. -/
def Memory.SameOutside (m m' : Memory) (base n : Nat) : Prop :=
  ∀ a, ¬(base ≤ a ∧ a < base + n) → m'.read a = m.read a

/-- `STATUS` after a completion without error that left `HAZ` at `haz`. -/
def Status.success (haz matched lenmis : Bool) : Status :=
  { done := true, err := false, haz := haz, matched := matched, lenmis := lenmis, errcode := .none }

/-- `STATUS` after a completion with the error `code` that left `HAZ` at `haz`. -/
def Status.failure (haz : Bool) (code : ErrCode) : Status :=
  { done := true, err := true, haz := haz, matched := false, lenmis := false, errcode := code }

/-- The block offsets at which a buffer byte exists (spec/20_memory.md R61). -/
abbrev isBufferByte (p : Config.Params) (a : Nat) : Prop :=
  (0x100 ≤ a ∧ a < 0x106) ∨ (0x108 ≤ a ∧ a < 0x10E) ∨ (0x1000 ≤ a ∧ a < 0x1000 + p.ibufSize) ∨
    (0x2000 ≤ a ∧ a < 0x2000 + p.obufSize)

/-- An access the block admits (spec/20_memory.md R64): an aligned word in the register regions, or one
byte of a byte window. -/
abbrev Admitted (p : Config.Params) (off : Offset) (width : Nat) : Prop :=
  (off.toNat < 0x100 ∧ width = 4 ∧ off.toNat % 4 = 0) ∨
    (0x100 ≤ off.toNat ∧ off.toNat < 0x110 ∧ width = 1) ∨
    (0x1000 ≤ off.toNat ∧ off.toNat < 0x1000 + p.ibufSize ∧ width = 1) ∨
    (0x2000 ≤ off.toNat ∧ off.toNat < 0x2000 + p.obufSize ∧ width = 1)

/-- A write that a busy block drops: of `CMD` (spec/60_exceptions.md R181) or of input state (R191, R36). -/
abbrev DroppedWhileBusy (p : Config.Params) (off : Offset) (width : Nat) : Prop :=
  (width = 4 ∧ (off = 0x008 ∨ off = 0x010 ∨ off = 0x01C ∨ off = 0x020 ∨ off = 0x02C)) ∨
    (width = 1 ∧ ((0x100 ≤ off.toNat ∧ off.toNat < 0x106) ∨ (0x108 ≤ off.toNat ∧ off.toNat < 0x10E) ∨
      (0x1000 ≤ off.toNat ∧ off.toNat < 0x1000 + p.ibufSize)))

/-- Every byte of every buffer has a value, as after `ZEROIZE` (spec/43_control.md R171). -/
def State.AllWritten (s : State) : Prop :=
  ∀ a, isBufferByte s.cfg a → (s.mem.read a).isSome = true

/-- The memory is in its canonical form and lists nothing but buffer bytes (R35, R61). -/
abbrev State.MemoryInv (s : State) : Prop :=
  s.mem.wf = true ∧ ∀ c ∈ s.mem, isBufferByte s.cfg c.1

/-- While a command runs the fields an acceptance clears stay 0 (R26, R27); `ERR` says whether there is a
code (R28); a match excludes a wrong length and an error (R151, R183). -/
abbrev State.StatusInv (s : State) : Prop :=
  (s.busy = true → s.status.done = false ∧ s.status.err = false ∧ s.status.matched = false ∧
    s.status.lenmis = false ∧ s.status.errcode = .none) ∧
  (s.status.err = true ↔ s.status.errcode ≠ .none) ∧
  (s.status.matched = true → s.status.lenmis = false ∧ s.status.err = false) ∧
  (s.status.lenmis = true → s.status.err = false)

/-- The results stay in range: `CODEVAL` is `TRUNC mod 10^6` (R37, R38), `OLEN` fits `OBUF` (R32, R6), and
`ERRPOS` is an index of `IBUF`, 0 unless the last completed command ended with `INVALID_CHARACTER`
(R33). -/
abbrev State.ResultInv (s : State) : Prop :=
  s.codeval.toNat = s.trunc.toNat % 1000000 ∧ s.olen.toNat ≤ s.cfg.obufSize ∧
    s.errpos.toNat < s.cfg.ibufSize ∧
    (s.busy = false → s.errpos ≠ 0 → s.status.errcode = .invalidCharacter)

/-- The invariant of the machine. -/
abbrev State.Inv (s : State) : Prop := s.cfg.Ok ∧ s.MemoryInv ∧ s.StatusInv ∧ s.ResultInv

end Sys2Proof.Machine
end

