-- ==== Sys2Proof/Certificates/Slice0/Obligations.lean ====
section
/-! DEFINITION. The statements about the model (OBLIGATIONS.json).  Each is stated over every state and
operand; a state in which a host slot or a completion is the next event is described by its latch and by
the host's next slot.  None is proved here. -/

open Sys2Proof Sys2Proof.Machine

/-! ### Encoding -/

/-- 30_encoding.md section 3: decoding the word of a well-formed instruction gives the instruction back. -/
def Obligations.EncodeThenDecodeIsIdentity : Prop := ∀ i : Instr, i.wf = true → decode (encode i) = i

/-- 30_encoding.md section 1 (total decoding): every word decodes to a well-formed instruction that encodes
to that word, so no bit of a word is dropped. -/
def Obligations.DecodeThenEncodeIsIdentity : Prop :=
  ∀ w : Word, (decode w).wf = true ∧ encode (decode w) = w

/-- R85: the opcode map, word by word, and its reserved row. -/
def Obligations.OpcodeMapWords : Prop :=
  decode 0x00000000 = .nop ∧ decode 0x00000001 = .b32enc ∧ decode 0x00000002 = .b32dec ∧
    decode 0x00000003 = .ctrser ∧ decode 0x00000004 = .hotptrunc ∧ decode 0x00000005 = .ctcmp ∧
    decode 0x00000006 = .trunccmp ∧ decode 0x00000007 = .zeroize ∧
    ∀ w : Word, 0x08 ≤ w.toNat → w.toNat ≤ 0xFF → decode w = .illegal w

/-- R84, with R86's condition: a word is the illegal command exactly when a reserved bit is set or the
opcode is 0x08 or more. -/
def Obligations.IllegalExactlyWhenReservedOrUndefined : Prop :=
  ∀ w v : Word, decode w = .illegal v ↔
    v = w ∧ (w.toNat / 2 ^ 8 ≠ 0 ∨ 0x08 ≤ w.toNat % 2 ^ 8)

/-! ### Steps -/

/-- 60_exceptions.md section 1 (completion): when the latched command is due and no reset is asserted, a step
is the completion of the command the latched word decodes to (a step of its own: assumption 13). -/
def Obligations.StepRunsDueCommand : Prop :=
  ∀ (s : State) (w : Word), s.latch = some { word := w, wait := 0 } → s.script[s.hpc]? ≠ some .reset →
    step s = exec (decode w) s

/-- 20_memory.md section 5: when no completion is due a step is one slot of the host
(assumption 1). -/
def Obligations.StepPerformsHostSlot : Prop :=
  ∀ s : State, (s.latch = none ∨ ∃ w k, s.latch = some { word := w, wait := k + 1 }) → step s = s.hostStep

/-- Assumption 12: after `withFetchWord` the very next step runs exactly the instruction the decoder reads
from that word. -/
def Obligations.PlacedWordRunsNext : Prop :=
  ∀ (s : State) (nbits w : Nat), nbits ≤ 32 →
    ∃ i, decodeTableWord nbits w = some i ∧ step (s.withFetchWord nbits w) = exec i (s.withFetchWord nbits w)

/-- R180: a command write while idle is accepted in one step, and until the completion no host slot changes
the input state or the latched word.  (`hpc`, `resp` and `wait` are the model's own: assumptions 1, 14, 2.) -/
def Obligations.CommandWriteIsAccepted : Prop :=
  (∀ (s : State) (v : Word), s.latch = none → s.nextOp = some (.write 0x008 4 v) →
    ∃ k, step s = .next { s with
      status := { done := false, err := false, haz := s.status.haz, matched := false, lenmis := false,
                  errcode := .none }
      latch := some { word := v, wait := k }
      hpc := s.hpc + 1
      resp := .ack }) ∧
  ∀ (s t : State) (w : Word) (k : Nat), s.latch = some { word := w, wait := k + 1 } →
    s.nextOp ≠ some .reset → step s = .next t →
    t.latch = some { word := w, wait := k } ∧ t.ilen = s.ilen ∧ t.ctrLo = s.ctrLo ∧ t.ctrHi = s.ctrHi ∧
      t.candlen = s.candlen ∧ t.mem = s.mem

/-- R181: a command write while busy is dropped and sets `HAZ`; the running command goes on. -/
def Obligations.BusyCommandWriteIsDropped : Prop :=
  ∀ (s : State) (w v : Word) (k : Nat), s.latch = some { word := w, wait := k + 1 } →
    s.nextOp = some (.write 0x008 4 v) →
    step s = .next { s with
      latch := some { word := w, wait := k }
      status := { s.status with haz := true }
      hpc := s.hpc + 1
      resp := .ack }

/-- R191: while busy a write to input state is dropped and sets `HAZ`; writes to `CTRL` and `STATUS` take
effect; writes to read-only state are ignored, busy or not, and leave `HAZ`. -/
def Obligations.BusyInputWritesAreDropped : Prop :=
  ∀ (s : State) (off : Offset) (width : Nat) (v : Word), s.cfg.Ok → s.nextOp = some (.write off width v) →
    (∀ w k, s.latch = some { word := w, wait := k + 1 } →
      ((width = 4 ∧ (off = 0x010 ∨ off = 0x01C ∨ off = 0x020 ∨ off = 0x02C)) ∨
        (width = 1 ∧ ((0x1000 ≤ off.toNat ∧ off.toNat < 0x1000 + s.cfg.ibufSize) ∨
          (0x100 ≤ off.toNat ∧ off.toNat < 0x106) ∨ (0x108 ≤ off.toNat ∧ off.toNat < 0x10E))) →
        step s = .next { s with
          latch := some { word := w, wait := k }, status := { s.status with haz := true }
          hpc := s.hpc + 1, resp := .ack }) ∧
      (width = 4 → off = 0x004 → step s = .next { s with
        latch := some { word := w, wait := k }, ctrlIe := v.getLsbD 0, hpc := s.hpc + 1, resp := .ack }) ∧
      (width = 4 → off = 0x00C → step s = .next { s with
        latch := some { word := w, wait := k }
        status := { s.status with done := s.status.done && !v.getLsbD 1, haz := s.status.haz && !v.getLsbD 3 }
        hpc := s.hpc + 1, resp := .ack })) ∧
    ((width = 4 ∧ (off = 0x000 ∨ off = 0x014 ∨ off = 0x018 ∨ off = 0x024 ∨ off = 0x028)) ∨
      (width = 1 ∧ 0x2000 ≤ off.toNat ∧ off.toNat < 0x2000 + s.cfg.obufSize) →
      (s.latch = none → step s = .next { s with hpc := s.hpc + 1, resp := .ack }) ∧
      ∀ w k, s.latch = some { word := w, wait := k + 1 } → step s = .next { s with
        latch := some { word := w, wait := k }, hpc := s.hpc + 1, resp := .ack })

/-- 10_state.md sections 2 and 3: while idle a write to an input register stores its field, a write to
`CTRL` its enable bit, a write to `STATUS` clears `DONE` by bit [1] and `HAZ` by bit [3], and a
write to a byte of `IBUF`, `EXP` or `CAND` that byte alone. -/
def Obligations.IdleWritesAreStored : Prop :=
  ∀ (s : State) (off : Offset) (width : Nat) (v : Word), s.latch = none →
    s.nextOp = some (.write off width v) →
    (width = 4 → off = 0x010 → step s = .next { s with
      ilen := BitVec.ofNat 16 v.toNat, hpc := s.hpc + 1, resp := .ack }) ∧
    (width = 4 → off = 0x01C → step s = .next { s with ctrLo := v, hpc := s.hpc + 1, resp := .ack }) ∧
    (width = 4 → off = 0x020 → step s = .next { s with ctrHi := v, hpc := s.hpc + 1, resp := .ack }) ∧
    (width = 4 → off = 0x02C → step s = .next { s with
      candlen := BitVec.ofNat 8 v.toNat, hpc := s.hpc + 1, resp := .ack }) ∧
    (width = 4 → off = 0x004 → step s = .next { s with
      ctrlIe := v.getLsbD 0, hpc := s.hpc + 1, resp := .ack }) ∧
    (width = 4 → off = 0x00C → step s = .next { s with
      status := { s.status with done := s.status.done && !v.getLsbD 1, haz := s.status.haz && !v.getLsbD 3 }
      hpc := s.hpc + 1, resp := .ack }) ∧
    (width = 1 →
      (0x100 ≤ off.toNat ∧ off.toNat < 0x106) ∨ (0x108 ≤ off.toNat ∧ off.toNat < 0x10E) ∨
        (0x1000 ≤ off.toNat ∧ off.toNat < 0x1000 + s.cfg.ibufSize) →
      ∃ m, step s = .next { s with mem := m, hpc := s.hpc + 1, resp := .ack } ∧
        m.read off.toNat = some (BitVec.ofNat 8 v.toNat) ∧ s.mem.SameOutside m off.toNat 1)

/-- 10_state.md section 6: reserved register offsets and reserved bytes read 0 and ignore writes, busy or idle:
only the running command's cycle passes, and `HAZ` stays as it is. -/
def Obligations.ReservedSpaceReadsZeroAndIgnoresWrites : Prop :=
  ∀ (s : State) (off : Offset), s.completing = none →
    ((0x030 ≤ off.toNat ∧ off.toNat ≤ 0x0FC ∧ off.toNat % 4 = 0) →
      (s.nextOp = some (.read off 4) → step s = .next { s with
        latch := s.latch.map fun l => { l with wait := l.wait - 1 }, hpc := s.hpc + 1, resp := .word 0 }) ∧
      ∀ v, s.nextOp = some (.write off 4 v) → step s = .next { s with
        latch := s.latch.map fun l => { l with wait := l.wait - 1 }, hpc := s.hpc + 1, resp := .ack }) ∧
    ((off = 0x106 ∨ off = 0x107 ∨ off = 0x10E ∨ off = 0x10F) →
      (s.nextOp = some (.read off 1) → step s = .next { s with
        latch := s.latch.map fun l => { l with wait := l.wait - 1 }, hpc := s.hpc + 1, resp := .byte 0 }) ∧
      ∀ v, s.nextOp = some (.write off 1 v) → step s = .next { s with
        latch := s.latch.map fun l => { l with wait := l.wait - 1 }, hpc := s.hpc + 1, resp := .ack })

/-- 10_state.md section 2: what each register reads while idle. -/
def Obligations.IdleReadsReturnTrueValues : Prop :=
  ∀ (s : State) (off : Offset) (v : Word), s.latch = none → s.nextOp = some (.read off 4) →
    (off, v) ∈ [((0x000 : Offset), s.cfg.blockId), (0x004, BitVec.ofNat 32 s.ctrlIe.toNat), (0x008, 0),
      (0x00C, BitVec.ofNat 32 (2 * s.status.done.toNat + 4 * s.status.err.toNat + 8 * s.status.haz.toNat +
        16 * s.status.matched.toNat + 32 * s.status.lenmis.toNat + 256 * s.status.errcode.code.toNat)),
      (0x010, BitVec.ofNat 32 s.ilen.toNat), (0x014, BitVec.ofNat 32 s.olen.toNat),
      (0x018, BitVec.ofNat 32 s.errpos.toNat), (0x01C, s.ctrLo), (0x020, s.ctrHi),
      (0x024, BitVec.ofNat 32 s.trunc.toNat), (0x028, BitVec.ofNat 32 s.codeval.toNat),
      (0x02C, BitVec.ofNat 32 s.candlen.toNat)] →
    step s = .next { s with hpc := s.hpc + 1, resp := .word v }

/-- R36's rule for reads while busy: `ID`, `CTRL`, `CMD`, `STATUS` and the input registers read true, and the
result registers read a free value of their width (assumption 3). -/
def Obligations.BusyReadsAreTrueOrDrawn : Prop :=
  ∀ (s : State) (w : Word) (k : Nat) (off : Offset) (v : Word), s.latch = some { word := w, wait := k + 1 } →
    s.nextOp = some (.read off 4) →
    ((off, v) ∈ [((0x000 : Offset), s.cfg.blockId), (0x004, BitVec.ofNat 32 s.ctrlIe.toNat), (0x008, 0),
      (0x00C, BitVec.ofNat 32 (1 + 2 * s.status.done.toNat + 4 * s.status.err.toNat +
        8 * s.status.haz.toNat + 16 * s.status.matched.toNat + 32 * s.status.lenmis.toNat +
        256 * s.status.errcode.code.toNat)),
      (0x010, BitVec.ofNat 32 s.ilen.toNat), (0x01C, s.ctrLo), (0x020, s.ctrHi),
      (0x02C, BitVec.ofNat 32 s.candlen.toNat)] →
      step s = .next { s with
        latch := some { word := w, wait := k }, hpc := s.hpc + 1, resp := .word v }) ∧
    ((off, v) ∈ [((0x014 : Offset), BitVec.ofNat 32 (Config.anyU16 s.draws).toNat),
      (0x018, BitVec.ofNat 32 (Config.anyU16 s.draws).toNat),
      (0x024, BitVec.ofNat 32 (Config.anyU31 s.draws).toNat),
      (0x028, BitVec.ofNat 32 (Config.anyU20 s.draws).toNat)] →
      step s = .next { s with
        latch := some { word := w, wait := k }, hpc := s.hpc + 1, resp := .word v, draws := s.draws + 1 })

/-- 20_memory.md section 2: a byte read returns the byte; it is a free draw for a byte with no value, and
for `OBUF` and `EXP` while busy; `IBUF` and `CAND` read true while busy too
(assumptions 3 and 10). -/
def Obligations.ByteReadsReturnByteOrDraw : Prop :=
  ∀ (s : State) (off : Offset), s.cfg.Ok → s.nextOp = some (.read off 1) → isBufferByte s.cfg off.toNat →
    (∀ v, s.latch = none → s.mem.read off.toNat = some v →
      step s = .next { s with hpc := s.hpc + 1, resp := .byte v }) ∧
    (s.latch = none → s.mem.read off.toNat = none →
      step s = .next { s with
        hpc := s.hpc + 1, resp := .byte (Config.anyU8 s.draws), draws := s.draws + 1 }) ∧
    (∀ w k, s.latch = some { word := w, wait := k + 1 } →
      (off.toNat < 0x106 ∨ 0x2000 ≤ off.toNat) ∨ s.mem.read off.toNat = none →
      step s = .next { s with
        latch := some { word := w, wait := k }, hpc := s.hpc + 1
        resp := .byte (Config.anyU8 s.draws), draws := s.draws + 1 }) ∧
    (∀ w k v, s.latch = some { word := w, wait := k + 1 } → 0x106 ≤ off.toNat → off.toNat < 0x2000 →
      s.mem.read off.toNat = some v →
      step s = .next { s with
        latch := some { word := w, wait := k }, hpc := s.hpc + 1, resp := .byte v })

/-- 20_memory.md section 4: a read has no side effect on the block. -/
def Obligations.ReadsHaveNoSideEffects : Prop :=
  ∀ (s t : State) (off : Offset) (width : Nat), s.completing = none → s.nextOp = some (.read off width) →
    step s = .next t →
    t = { s with
      latch := s.latch.map fun l => { l with wait := l.wait - 1 }
      hpc := s.hpc + 1
      resp := t.resp
      draws := t.draws } ∧ (t.draws = s.draws ∨ t.draws = s.draws + 1)

/-- R64: an access is refused with the bus error exactly when the width and alignment rule does not allow
it, a read, a write, or the 32-bit read of a `BIT1` line.  That the machine stops is how
R65 asks a model to treat it (assumption 9). -/
def Obligations.RefusedExactlyWhenNotAdmitted : Prop :=
  ∀ (s : State) (off : Offset) (width : Nat), s.completing = none →
    (s.nextOp = some (.read off width) ∨ (∃ v, s.nextOp = some (.write off width v)) ∨
      (width = 4 ∧ ∃ l b, s.nextOp = some (.bit1 l off b))) →
    (step s = .fault (.busError off) ↔ ¬ Admitted s.cfg off width) ∧
      (Admitted s.cfg off width → ∃ t, step s = .next t)

/-- R211 and R212: reset gives every register its reset value and every buffer byte no value, abandons a
running command, and wins over a completion that is due. -/
def Obligations.ResetWinsAndClears : Prop :=
  ∀ s : State, s.nextOp = some .reset → ∃ t, step s = .next t ∧
    t.ctrlIe = false ∧
    t.status = { done := false, err := false, haz := false, matched := false, lenmis := false,
                 errcode := .none } ∧
    t.ilen = 0 ∧ t.olen = 0 ∧ t.errpos = 0 ∧ t.ctrLo = 0 ∧ t.ctrHi = 0 ∧ t.trunc = 0 ∧ t.codeval = 0 ∧
    t.candlen = 0 ∧ (∀ a, t.mem.read a = none) ∧ t.latch = none ∧ t.irq = false ∧ t.cfg = s.cfg

/-- R48: the reset values, with the default parameters. -/
def Obligations.ResetStateValues : Prop :=
  State.reset.regValue .id = 0xB32C0700 ∧ State.reset.regValue .ctrl = 0 ∧
    State.reset.regValue .status = 0 ∧ State.reset.ilen = 0 ∧ State.reset.olen = 0 ∧
    State.reset.errpos = 0 ∧ State.reset.ctrLo = 0 ∧ State.reset.ctrHi = 0 ∧ State.reset.trunc = 0 ∧
    State.reset.codeval = 0 ∧ State.reset.candlen = 0 ∧ (∀ a, State.reset.mem.read a = none) ∧
    State.reset.latch = none ∧ State.reset.irq = false

/-- 60_exceptions.md section 1 (no call can stall): a latched command completes after its remaining cycles
when the host does nothing more (cycles as host slots: assumption 2). -/
def Obligations.AcceptedCommandCompletes : Prop :=
  ∀ (s : State) (w : Word) (k : Nat), s.nextOp = none → s.latch = some { word := w, wait := k } →
    Sys2Proof.core.run (k + 1) s = exec (decode w) { s with latch := some { word := w, wait := 0 } }

/-- 70_reset_and_hazards.md section 4: a command takes `LAT(op, ilen)` cycles, which depend on its opcode and
on `ILEN` only, whatever else differs between two machines (assumption 2). -/
def Obligations.LatencyDependsOnOpcodeAndLengthOnly : Prop :=
  ∀ (s s' : State) (v v' : Word), s.latch = none → s'.latch = none →
    s.nextOp = some (.write 0x008 4 v) → s'.nextOp = some (.write 0x008 4 v') →
    v.toNat % 2 ^ 8 = v'.toNat % 2 ^ 8 → s.ilen = s'.ilen →
    ∃ t t' l l', step s = .next t ∧ step s' = .next t' ∧ t.latch = some l ∧ t'.latch = some l' ∧
      l.word = v ∧ l'.word = v' ∧ l.wait + 1 = Config.lat (opcOf v) s.ilen ∧ l.wait = l'.wait

/-! ### Commands: what each completion leaves, whole -/

/-- R170: `NOP` clears the report of the last command, sets `DONE`, and touches nothing else. -/
def Obligations.NopCompletesWithoutEffect : Prop :=
  encode .nop = 0x00000000 ∧
  ∀ s : State, exec .nop s = .next { s with
      olen := 0, errpos := 0, status := Status.success s.status.haz false false, latch := none } ∧
    ∀ t, exec .nop s = .next t →
      t.statusWord = (if s.status.haz then 0x0000000A else 0x00000002) ∧ t.irq = s.ctrlIe

/-- R171: `ZEROIZE` sets every buffer byte and every data register to 0 and leaves `CTRL` and `HAZ`; every
command completes on the state it leaves, and on every state a run from there reaches under a host script
that resets nothing, however the host has filled the input state since. -/
def Obligations.ZeroizeErasesEverything : Prop :=
  encode .zeroize = 0x00000007 ∧
  ∀ s : State, ∃ m, exec .zeroize s = .next { s with
      ilen := 0, ctrLo := 0, ctrHi := 0, candlen := 0, trunc := 0, codeval := 0, mem := m
      olen := 0, errpos := 0, status := Status.success s.status.haz false false, latch := none } ∧
    (∀ a, isBufferByte s.cfg a → m.read a = some 0) ∧
    (∀ a, ¬ isBufferByte s.cfg a → m.read a = s.mem.read a) ∧
    (∀ t i, exec .zeroize s = .next t → ∃ u, exec i t = .next u) ∧
    ∀ t u i k, s.cfg.Ok → HostOp.reset ∉ s.script → exec .zeroize s = .next t →
      Sys2Proof.core.run k t = .next u → ∃ v, exec i u = .next v

/-- R172: an illegal command completes with `ILLEGAL_COMMAND` and changes no data. -/
def Obligations.IllegalCommandIsReported : Prop :=
  ∀ (s : State) (w : Word), exec (.illegal w) s = .next { s with
      olen := 0, errpos := 0, status := Status.failure s.status.haz .illegalCommand, latch := none } ∧
    decode 0x00000101 = .illegal 0x00000101 ∧
    ∀ t, exec (.illegal w) s = .next t → s.status.haz = false → t.statusWord = 0x00000206

/-- R102: `B32ENC` on `n` bytes writes `ceil(8n/5)` alphabet characters whose symbol bits are the bits of the
input, most significant first, zero padded on the right, and nothing else; it fits `OBUF`; `n` beyond
`IBUF_SIZE` is `BAD_LENGTH`, whatever the bytes. -/
def Obligations.B32encWritesText : Prop :=
  encode .b32enc = 0x00000001 ∧
  (∀ s : State, s.cfg.ibufSize < s.ilen.toNat → exec .b32enc s = .next { s with
    olen := 0, errpos := 0, status := Status.failure s.status.haz .badLength, latch := none }) ∧
  ∀ (s : State) (bs : List Byte), s.ilen.toNat = bs.length → bs.length ≤ s.cfg.ibufSize →
    s.Holds 0x1000 bs →
    (s.cfg.Ok → (8 * bs.length + 4) / 5 ≤ s.cfg.obufSize) ∧
    ∃ m, exec .b32enc s = .next { s with
        mem := m, olen := BitVec.ofNat 16 ((8 * bs.length + 4) / 5), errpos := 0
        status := Status.success s.status.haz false false, latch := none } ∧
      (∀ j, j < (8 * bs.length + 4) / 5 → ∃ v : Symbol, m.read (0x2000 + j) = some (alpha v) ∧
        ∀ k, k < 5 → v.getMsbD k =
          (decide (5 * j + k < 8 * bs.length) &&
            (bs.getD ((5 * j + k) / 8) 0 >>> (7 - (5 * j + k) % 8)).getLsbD 0)) ∧
      s.mem.SameOutside m 0x2000 ((8 * bs.length + 4) / 5)

/-- 60_exceptions.md section 2 (the `BAD_LENGTH` rows): a bad length ends the command before any buffer byte
is read and changes no data. -/
def Obligations.BadLengthIsReported : Prop :=
  ∀ (s : State) (i : Instr),
    ((i = .b32enc ∨ i = .b32dec) ∧ s.cfg.ibufSize < s.ilen.toNat) ∨
      ((i = .hotptrunc ∨ i = .trunccmp) ∧ s.ilen.toNat ≠ 20) →
    exec i s = .next { s with
      olen := 0, errpos := 0, status := Status.failure s.status.haz .badLength, latch := none }

/-- 10_state.md section 3 (no value): the codec commands stop with the model fault at the first of the
`ILEN` input bytes that has no value (the fault names its offset: assumption 22). -/
def Obligations.CodecStopsAtByteWithoutValue : Prop :=
  ∀ (s : State) (i : Instr) (j : Nat), i = .b32enc ∨ i = .b32dec → s.ilen.toNat ≤ s.cfg.ibufSize →
    j < s.ilen.toNat → s.ibufAt j = none → (∀ k, k < j → (s.ibufAt k).isSome = true) →
    exec i s = .fault (.unwrittenRead (0x1000 + j))

/-- 40_base32.md section 3: `B32DEC` on a text whose characters, folded and without `=`, are the alphabet
characters of the symbols `vs` writes `floor(5m/8)` bytes whose bits are the bits of the symbols. -/
def Obligations.B32decWritesBytes : Prop :=
  ∀ (s : State) (text : List Byte) (vs : List Symbol), s.ilen.toNat = text.length →
    text.length ≤ s.cfg.ibufSize → s.Holds 0x1000 text →
    ((text.map fun c => if 0x61 ≤ c.toNat ∧ c.toNat ≤ 0x7A then c - 0x20 else c).filter
      fun c => decide (c ≠ 0x3D)) = vs.map alpha →
    ∃ m, exec .b32dec s = .next { s with
        mem := m, olen := BitVec.ofNat 16 (5 * vs.length / 8), errpos := 0
        status := Status.success s.status.haz false false, latch := none } ∧
      (∀ k, k < 5 * vs.length / 8 → ∃ b : Byte, m.read (0x2000 + k) = some b ∧
        ∀ t, t < 8 → b.getMsbD t =
          (vs.getD ((8 * k + t) / 5) 0 >>> (4 - (8 * k + t) % 5)).getLsbD 0) ∧
      s.mem.SameOutside m 0x2000 (5 * vs.length / 8)

/-- 40_base32.md section 3 and 60_exceptions.md section 2: `B32DEC` on a text whose first invalid kept
character has index `i` reports `INVALID_CHARACTER` at `i` and leaves free values in the output bytes
(assumption 3). -/
def Obligations.B32decReportsInvalidCharacter : Prop :=
  ∀ (s : State) (text : List Byte) (i : Nat), s.ilen.toNat = text.length →
    text.length ≤ s.cfg.ibufSize → s.Holds 0x1000 text → i < text.length →
    (foldCase (text.getD i 0) ≠ 0x3D ∧ ∀ v : Symbol, alpha v ≠ foldCase (text.getD i 0)) →
    (∀ j, j < i → foldCase (text.getD j 0) = 0x3D ∨ ∃ v : Symbol, alpha v = foldCase (text.getD j 0)) →
    ∃ m, exec .b32dec s = .next { s with
        mem := m, draws := s.draws + 5 * (text.filter fun c => decide (c ≠ 0x3D)).length / 8, olen := 0
        errpos := BitVec.ofNat 16 i, status := Status.failure s.status.haz .invalidCharacter
        latch := none } ∧
      (∀ j, j < 5 * (text.filter fun c => decide (c ≠ 0x3D)).length / 8 →
        m.read (0x2000 + j) = some (Config.anyU8 (s.draws + j))) ∧
      s.mem.SameOutside m 0x2000 (5 * (text.filter fun c => decide (c ≠ 0x3D)).length / 8)

/-- R109: encoding a byte sequence, copying the text into `IBUF` and decoding it gives the sequence back. -/
def Obligations.Base32RoundTrip : Prop :=
  ∀ (s : State) (bs : List Byte), s.cfg.Ok → bs.length ≤ 5 * s.cfg.ibufSize / 8 →
    s.ilen.toNat = bs.length → s.Holds 0x1000 bs →
    ∃ t, exec .b32enc s = .next t ∧ t.status.err = false ∧
      ∀ u : State, u.cfg = s.cfg → u.ilen = t.olen → (∀ j, j < t.olen.toNat → u.ibufAt j = t.obufAt j) →
        ∃ v, exec .b32dec u = .next v ∧ v.olen.toNat = bs.length ∧ v.Holds 0x2000 bs ∧
          v.status.err = false ∧ v.status.errcode = .none

/-- R103: the length of the encoded text and the pad bits of its last symbol. -/
def Obligations.EncodedLengthLaw : Prop :=
  ∀ bs : List Byte, (base32Encode bs).length = (8 * bs.length + 4) / 5 ∧
    (base32Encode bs).length = 8 * (bs.length / 5) + [0, 2, 4, 5, 7].getD (bs.length % 5) 0 ∧
    5 * (base32Encode bs).length = 8 * bs.length + [0, 2, 4, 1, 3].getD (bs.length % 5) 0 ∧
    (base32Encode bs).length % 8 ∈ [0, 2, 4, 5, 7]

/-- R101 and R45: the inverse table is the exact inverse of the alphabet, total over all bytes, and the
alphabet is that of R44. -/
def Obligations.InverseTableIsExact : Prop :=
  (∀ (c : Byte) (v : Symbol), inv c = some v ↔ c = alpha v) ∧
    (∀ v : Symbol, v.toNat ≤ 25 → (alpha v).toNat = 0x41 + v.toNat) ∧
    ∀ v : Symbol, 26 ≤ v.toNat → (alpha v).toNat = 0x32 + (v.toNat - 26)

/-- 40_base32.md section 3 (case folding, padding removal): two texts with the same kept characters decode
to the same bytes, wherever their padding stands and whatever their case. -/
def Obligations.DecodingIgnoresCaseAndPadding : Prop :=
  ∀ (s s' t : State) (text text' : List Byte),
    s.ilen.toNat = text.length → text.length ≤ s.cfg.ibufSize → s.Holds 0x1000 text →
    s'.ilen.toNat = text'.length → text'.length ≤ s'.cfg.ibufSize → s'.Holds 0x1000 text' →
    (text.map foldCase).filter (fun c => decide (c ≠ 0x3D)) =
      (text'.map foldCase).filter (fun c => decide (c ≠ 0x3D)) →
    exec .b32dec s = .next t → t.status.err = false →
    ∃ t', exec .b32dec s' = .next t' ∧ t'.status.err = false ∧ t'.olen = t.olen ∧
      ∀ k, k < 5 * ((text.map foldCase).filter (fun c => decide (c ≠ 0x3D))).length / 8 →
        t'.obufAt k = t.obufAt k

/-- R130: `CTRSER` writes the counter as 8 big-endian bytes and nothing else. -/
def Obligations.CtrserWritesBigEndianCounter : Prop :=
  encode .ctrser = 0x00000003 ∧
  ∀ s : State, ∃ m, exec .ctrser s = .next { s with
      mem := m, olen := 8, errpos := 0, status := Status.success s.status.haz false false, latch := none } ∧
    (∀ i, i < 8 → m.read (0x2000 + i) =
      some (BitVec.ofNat 8 ((s.ctrHi.toNat * 2 ^ 32 + s.ctrLo.toNat) / 2 ^ (8 * (7 - i))))) ∧
    s.mem.SameOutside m 0x2000 8

/-- R131: the 8 bytes `CTRSER` writes are the counter as a big-endian integer, and serialisation is a
bijection. -/
def Obligations.CounterSerialisationIsBijective : Prop :=
  (∀ s : State, ∃ t, exec .ctrser s = .next t ∧
    ∀ i, i < 8 → t.obufAt i = (counterBytes (s.ctrHi ++ s.ctrLo))[i]?) ∧
  (∀ c : BitVec 64, (counterBytes c).length = 8 ∧
    ((counterBytes c).foldl (fun acc b => acc * 256 + b.toNat) 0) = c.toNat) ∧
  ∀ bs : List Byte, bs.length = 8 → ∃ c : BitVec 64, counterBytes c = bs ∧ ∀ c', counterBytes c' = bs → c' = c

/-- R132 to R136: `HOTPTRUNC` on a 20-byte digest: offset, truncated value, code and digits, whole; any other
length is `BAD_LENGTH`. -/
def Obligations.HotptruncComputesCode : Prop :=
  encode .hotptrunc = 0x00000004 ∧
  (∀ s : State, s.ilen.toNat ≠ 20 → exec .hotptrunc s = .next { s with
    olen := 0, errpos := 0, status := Status.failure s.status.haz .badLength, latch := none }) ∧
  ∀ (s : State) (d : List Byte), s.ilen = 20 → d.length = 20 → s.Holds 0x1000 d →
    ∀ o p : Nat, o = (d.getD 19 0).toNat % 16 →
      p = (d.getD o 0).toNat % 128 * 2 ^ 24 + (d.getD (o + 1) 0).toNat * 2 ^ 16 +
        (d.getD (o + 2) 0).toNat * 2 ^ 8 + (d.getD (o + 3) 0).toNat →
      o ≤ 15 ∧ o + 3 ≤ 18 ∧ p ≤ 2 ^ 31 - 1 ∧ p % 1000000 ≤ 999999 ∧
      ∃ m, exec .hotptrunc s = .next { s with
          mem := m, trunc := BitVec.ofNat 31 p, codeval := BitVec.ofNat 20 (p % 1000000), olen := 6
          errpos := 0, status := Status.success s.status.haz false false, latch := none } ∧
        (∀ k, k < 6 → ∃ b : Byte, m.read (0x2000 + k) = some b ∧ m.read (0x100 + k) = some b ∧
          b.toNat = 0x30 + p % 1000000 / 10 ^ (5 - k) % 10 ∧ 0x30 ≤ b.toNat ∧ b.toNat ≤ 0x39) ∧
        ∀ a, ¬(0x2000 ≤ a ∧ a < 0x2006) → ¬(0x100 ≤ a ∧ a < 0x106) → m.read a = s.mem.read a

/-- 10_state.md section 3 (no value), assumption 7: the truncation commands stop with the model fault at the
first of the 20 digest bytes that has no value. -/
def Obligations.TruncationStopsAtByteWithoutValue : Prop :=
  ∀ (s : State) (i : Instr) (j : Nat), i = .hotptrunc ∨ i = .trunccmp → s.ilen = 20 → j < 20 →
    s.ibufAt j = none → (∀ k, k < j → (s.ibufAt k).isSome = true) →
    exec i s = .fault (.unwrittenRead (0x1000 + j))

/-- R150 and R151: `CTCMP` reports a match exactly when the candidate's length is 6 and all six bytes agree,
and changes no data; a wrong length sets `LENMIS` whatever the bytes, even where they have no value; with
length 6 a byte of `EXP` or `CAND` without a value is the model fault. -/
def Obligations.CtcmpComparesCodes : Prop :=
  encode .ctcmp = 0x00000005 ∧
  (∀ (s : State) (e c : List Byte), s.candlen = 6 → e.length = 6 → c.length = 6 → s.Holds 0x100 e →
    s.Holds 0x108 c → exec .ctcmp s = .next { s with
      olen := 0, errpos := 0, status := Status.success s.status.haz (decide (e = c)) false
      latch := none }) ∧
  (∀ s : State, s.candlen ≠ 6 → exec .ctcmp s = .next { s with
      olen := 0, errpos := 0, status := Status.success s.status.haz false true, latch := none }) ∧
  ∀ (s : State) (k : Nat), s.candlen = 6 → k < 6 → s.expAt k = none ∨ s.candAt k = none →
    ∃ a, exec .ctcmp s = .fault (.unwrittenRead a) ∧ s.mem.read a = none ∧
      ((0x100 ≤ a ∧ a < 0x106) ∨ (0x108 ≤ a ∧ a < 0x10E))

/-- 42_compare.md section 2: `TRUNCCMP` is `HOTPTRUNC` followed by `CTCMP`, but for `OLEN` = 6, also where
`CANDLEN` is not 6 and bytes of `CAND` have no value (assumption 8). -/
def Obligations.TrunccmpIsTruncateThenCompare : Prop :=
  ∀ s t : State, exec .hotptrunc s = .next t → t.status.err = false →
    (∀ u, exec .ctcmp t = .next u → exec .trunccmp s = .next { u with olen := 6 }) ∧
    (∀ f, exec .ctcmp t = .fault f → exec .trunccmp s = .fault f)

/-- 42_compare.md section 2: what `TRUNCCMP` leaves, for a candidate of length 6 and of any other length (that
it then completes even where bytes of `CAND` have no value is assumption 8); a digest of another length is
`BAD_LENGTH` and no compare; with length 6 a byte of `CAND` without a value is the model
fault. -/
def Obligations.TrunccmpComputesAndCompares : Prop :=
  encode .trunccmp = 0x00000006 ∧
  (∀ s : State, s.ilen.toNat ≠ 20 → exec .trunccmp s = .next { s with
    olen := 0, errpos := 0, status := Status.failure s.status.haz .badLength, latch := none }) ∧
  ∀ (s : State) (d : List Byte), s.ilen = 20 → d.length = 20 → s.Holds 0x1000 d →
    ∀ o p : Nat, o = (d.getD 19 0).toNat % 16 →
      p = (d.getD o 0).toNat % 128 * 2 ^ 24 + (d.getD (o + 1) 0).toNat * 2 ^ 16 +
        (d.getD (o + 2) 0).toNat * 2 ^ 8 + (d.getD (o + 3) 0).toNat →
      ∃ m, (∀ k, k < 6 → ∃ b : Byte, m.read (0x2000 + k) = some b ∧ m.read (0x100 + k) = some b ∧
          b.toNat = 0x30 + p % 1000000 / 10 ^ (5 - k) % 10) ∧
        (∀ a, ¬(0x2000 ≤ a ∧ a < 0x2006) → ¬(0x100 ≤ a ∧ a < 0x106) → m.read a = s.mem.read a) ∧
        (s.candlen ≠ 6 → exec .trunccmp s = .next { s with
          mem := m, trunc := BitVec.ofNat 31 p, codeval := BitVec.ofNat 20 (p % 1000000), olen := 6
          errpos := 0, status := Status.success s.status.haz false true, latch := none }) ∧
        (∀ k, s.candlen = 6 → k < 6 → s.candAt k = none →
          ∃ j, exec .trunccmp s = .fault (.unwrittenRead (0x108 + j)) ∧ j < 6 ∧ s.candAt j = none) ∧
        ∀ c : List Byte, s.candlen = 6 → c.length = 6 → s.Holds 0x108 c →
          ∃ equal : Bool, (equal = true ↔ ∀ k, k < 6 → m.read (0x100 + k) = some (c.getD k 0)) ∧
            exec .trunccmp s = .next { s with
              mem := m, trunc := BitVec.ofNat 31 p, codeval := BitVec.ofNat 20 (p % 1000000), olen := 6
              errpos := 0, status := Status.success s.status.haz equal false, latch := none }

/-- 42_compare.md section 1 (constant time): two machines that differ only in the contents of `EXP` and
`CAND` and in `CANDLEN` end a compare in states that differ only there and in `MATCH` and `LENMIS`. -/
def Obligations.CompareRevealsOnlyTheVerdict : Prop :=
  ∀ (i : Instr) (s s' t : State), i = .ctcmp ∨ i = .trunccmp →
    s' = { s with candlen := s'.candlen, mem := s'.mem } →
    (∀ a, ¬(0x100 ≤ a ∧ a < 0x106) → ¬(0x108 ≤ a ∧ a < 0x10E) → s'.mem.read a = s.mem.read a) →
    (∀ k, k < 6 → (s'.expAt k).isSome = true ∧ (s'.candAt k).isSome = true) →
    exec i s = .next t →
    ∃ t', exec i s' = .next t' ∧
      t' = { t with
        candlen := s'.candlen
        mem := t'.mem
        status := { t.status with matched := t'.status.matched, lenmis := t'.status.lenmis } } ∧
      ∀ a, ¬(0x100 ≤ a ∧ a < 0x106) → ¬(0x108 ≤ a ∧ a < 0x10E) → t'.mem.read a = t.mem.read a

/-- 70_reset_and_hazards.md section 2: where every buffer byte has a value every command completes. -/
def Obligations.WrittenBuffersNeverFault : Prop :=
  ∀ (s : State) (i : Instr), s.cfg.Ok → s.AllWritten → ∃ t, exec i s = .next t

/-- 60_exceptions.md section 2 and 20_memory.md section 2: the machine stops only for a refused host access,
or at a completion whose command reads a buffer byte that has no value (assumptions 6 and 9). -/
def Obligations.StopsOnlyForRefusedAccessOrMissingByte : Prop :=
  ∀ s : State, s.cfg.Ok → (∃ t, step s = .next t) ∨
    (∃ off, step s = .fault (.busError off) ∧ s.completing = none ∧
      ∃ w, ¬ Admitted s.cfg off w ∧ (s.nextOp = some (.read off w) ∨ (∃ v, s.nextOp = some (.write off w v)) ∨
        ∃ l b, w = 4 ∧ s.nextOp = some (.bit1 l off b))) ∨
    ∃ a, step s = .fault (.unwrittenRead a) ∧ s.completing ≠ none ∧ isBufferByte s.cfg a ∧
      s.mem.read a = none

/-- 60_exceptions.md section 1: every completion ends the command, sets `DONE`, keeps `HAZ`, `CTRL` and what
stands around the block, and reports an error code exactly when it reports an error. -/
def Obligations.EveryCompletionReports : Prop :=
  ∀ (i : Instr) (s t : State), exec i s = .next t →
    t.busy = false ∧ t.status.done = true ∧ t.status.haz = s.status.haz ∧ t.ctrlIe = s.ctrlIe ∧
      t.irq = s.ctrlIe ∧ t.cfg = s.cfg ∧ t.script = s.script ∧ t.hpc = s.hpc ∧ t.resp = s.resp ∧
      (t.status.err = true ↔ t.status.errcode ≠ .none) ∧
      (t.status.errcode ≠ .invalidCharacter → t.errpos = 0)

/-- 10_state.md sections 2 and 3: which commands write which data state (the frame of every command). -/
def Obligations.CommandsWriteOnlyTheirResults : Prop :=
  ∀ (i : Instr) (s t : State), exec i s = .next t → i ≠ .zeroize →
    t.ilen = s.ilen ∧ t.ctrLo = s.ctrLo ∧ t.ctrHi = s.ctrHi ∧ t.candlen = s.candlen ∧
      (i ≠ .hotptrunc → i ≠ .trunccmp → t.trunc = s.trunc ∧ t.codeval = s.codeval) ∧
      (i ≠ .b32dec → t.draws = s.draws) ∧
      (i ≠ .ctcmp → i ≠ .trunccmp → t.status.matched = false ∧ t.status.lenmis = false) ∧
      (∀ a, a < 0x2000 → (i = .hotptrunc ∨ i = .trunccmp → ¬(0x100 ≤ a ∧ a < 0x106)) →
        t.mem.read a = s.mem.read a) ∧
      ∀ k, t.olen.toNat ≤ k → t.status.err = false → s.cfg.Ok → t.obufAt k = s.obufAt k

/-- 60_exceptions.md section 2 (data effects of an error). -/
def Obligations.ErrorsLeaveDataAlone : Prop :=
  ∀ (i : Instr) (s t : State), exec i s = .next t → t.status.err = true →
    t.olen = 0 ∧ t.ilen = s.ilen ∧ t.ctrLo = s.ctrLo ∧ t.ctrHi = s.ctrHi ∧ t.candlen = s.candlen ∧
      t.trunc = s.trunc ∧ t.codeval = s.codeval ∧ t.status.matched = false ∧ t.status.lenmis = false ∧
      (t.status.errcode ≠ .invalidCharacter → t.mem = s.mem) ∧
      (t.status.errcode = .invalidCharacter →
        i = .b32dec ∧ s.mem.SameOutside t.mem 0x2000 (5 * s.ilen.toNat / 8))

/-- R185's order of errors inside a command: an illegal word is reported as such whatever `ILEN` holds, and
a bad length before any character is looked at. -/
def Obligations.ErrorPriority : Prop :=
  ∀ (s t : State) (w : Word), exec (decode w) s = .next t →
    (8 ≤ w.toNat → t.status.errcode = .illegalCommand) ∧
    (w.toNat = 2 → s.cfg.ibufSize < s.ilen.toNat → t.status.errcode = .badLength) ∧
    (t.status.errcode = .illegalCommand → 8 ≤ w.toNat) ∧
    (t.status.errcode = .invalidCharacter → w.toNat = 2 ∧ s.ilen.toNat ≤ s.cfg.ibufSize)

/-! ### Rules of the whole machine -/

/-- 10_state.md section 3 and 20_memory.md section 1: every step keeps the memory canonical and inside the
buffers. -/
def Obligations.MemoryStaysCanonical : Prop :=
  ∀ s t : State, s.cfg.Ok → s.MemoryInv → step s = .next t → t.MemoryInv

/-- 10_state.md section 2: every step keeps the fields of `STATUS` consistent. -/
def Obligations.StatusStaysConsistent : Prop :=
  ∀ s t : State, s.StatusInv → step s = .next t → t.StatusInv

/-- 10_state.md section 2: every step keeps the result registers in range. -/
def Obligations.ResultsStayInRange : Prop :=
  ∀ s t : State, s.cfg.Ok → s.ResultInv → step s = .next t → t.ResultInv

/-- The state after reset meets the invariant, for every choice of the parameters that R6 allows. -/
def Obligations.ResetMeetsTheInvariant : Prop :=
  State.reset.Inv ∧ ∀ p : Config.Params, p.Ok → (State.resetWith p).Inv

/-- 70_reset_and_hazards.md section 2: once every buffer byte has a value it keeps one until a reset. -/
def Obligations.WrittenBuffersStayWritten : Prop :=
  ∀ s t : State, s.AllWritten → step s = .next t → s.nextOp ≠ some .reset → t.AllWritten

/-- R29: `HAZ` is set exactly by a write of `CMD` or of input state while busy, and once set it stays until a
`STATUS` write with bit [3] or a reset. -/
def Obligations.HazardIsSticky : Prop :=
  ∀ s t : State, step s = .next t →
    (s.status.haz = true → t.status.haz = false →
      s.nextOp = some .reset ∨ ∃ v : Word, s.nextOp = some (.write 0x00C 4 v) ∧ v.getLsbD 3 = true) ∧
    (s.status.haz = false → t.status.haz = true →
      s.busy = true ∧ s.completing = none ∧
        ∃ off width v, s.nextOp = some (.write off width v) ∧ DroppedWhileBusy s.cfg off width) ∧
    ∀ off width v, s.busy = true → s.completing = none → s.nextOp = some (.write off width v) →
      DroppedWhileBusy s.cfg off width → t.status.haz = true

/-- 10_state.md section 2: `BUSY` rises only by an acceptance and falls only by a completion or a reset;
`DONE` rises only by a completion and falls only by an acceptance, a `STATUS` write with bit [1], or a
reset. -/
def Obligations.BusyAndDoneChangeOnlyAtTheirEvents : Prop :=
  ∀ s t : State, step s = .next t →
    (s.busy = false → t.busy = true → ∃ v, s.nextOp = some (.write 0x008 4 v)) ∧
    (s.busy = true → t.busy = false → s.completing ≠ none ∨ s.nextOp = some .reset) ∧
    (s.status.done = false → t.status.done = true → s.completing ≠ none) ∧
    (s.status.done = true → t.status.done = false →
      s.nextOp = some .reset ∨ (∃ v, s.busy = false ∧ s.nextOp = some (.write 0x008 4 v)) ∨
        ∃ v : Word, s.nextOp = some (.write 0x00C 4 v) ∧ v.getLsbD 1 = true)

/-- 10_state.md section 2: `ERR`, `ERRCODE`, `MATCH` and `LENMIS` change only at an acceptance, a completion
or a reset. -/
def Obligations.ReportChangesOnlyAtItsEvents : Prop :=
  ∀ s t : State, step s = .next t →
    (t.status.err ≠ s.status.err ∨ t.status.errcode ≠ s.status.errcode ∨
      t.status.matched ≠ s.status.matched ∨ t.status.lenmis ≠ s.status.lenmis) →
    s.completing ≠ none ∨ s.nextOp = some .reset ∨
      (s.busy = false ∧ ∃ v, s.nextOp = some (.write 0x008 4 v))

/-- 10_state.md sections 2, 3 and 6: no host access changes the result registers or a byte of `OBUF`. -/
def Obligations.HostNeverWritesResults : Prop :=
  ∀ s t : State, s.cfg.Ok → step s = .next t → s.completing = none → s.nextOp ≠ some .reset →
    t.olen = s.olen ∧ t.errpos = s.errpos ∧ t.trunc = s.trunc ∧ t.codeval = s.codeval ∧
      ∀ j, t.obufAt j = s.obufAt j

/-- 10_state.md section 2: `CTRL.IE` changes only by a `CTRL` write or a reset. -/
def Obligations.EnableChangesOnlyByCtrlWrite : Prop :=
  ∀ s t : State, step s = .next t → t.ctrlIe ≠ s.ctrlIe →
    s.nextOp = some .reset ∨ ∃ v, s.nextOp = some (.write 0x004 4 v) ∧ t.ctrlIe = v.getLsbD 0

/-- 10_state.md section 2 (`ID`) and assumption 4: no step changes the parameters or the host's script. -/
def Obligations.ParametersNeverChange : Prop :=
  ∀ s t : State, step s = .next t → t.cfg = s.cfg ∧ t.script = s.script

/-- R189: `IRQ` falls by a `STATUS` write with bit [1], by an acceptance, by `CTRL.IE` written 0, and at
reset; R188: it rises at once when `CTRL.IE` is written 1 while `DONE` is 1, and at no other host slot. -/
def Obligations.IrqFallsAndRises : Prop :=
  ∀ s t : State, step s = .next t →
    (s.irq = true → t.irq = false →
      s.nextOp = some .reset ∨ (∃ v, s.busy = false ∧ s.nextOp = some (.write 0x008 4 v)) ∨
        (∃ v : Word, s.nextOp = some (.write 0x00C 4 v) ∧ v.getLsbD 1 = true) ∨
        ∃ v : Word, s.nextOp = some (.write 0x004 4 v) ∧ v.getLsbD 0 = false) ∧
    (s.irq = false → t.irq = true → s.completing ≠ none ∨
      (s.status.done = true ∧ ∃ v : Word, s.nextOp = some (.write 0x004 4 v) ∧ v.getLsbD 0 = true)) ∧
    (s.completing = none → ∀ v : Word, s.nextOp = some (.write 0x00C 4 v) → v.getLsbD 1 = true →
      t.irq = false) ∧
    (s.completing = none → ∀ v : Word, s.nextOp = some (.write 0x004 4 v) →
      t.irq = (s.status.done && v.getLsbD 0))

/-- 30_encoding.md section 4 (`WAIT`): the polling line stays at itself while the engine is busy and goes on
when it is idle (the script is the model's: assumptions 1 and 17). -/
def Obligations.PollingLoopWaitsForCompletion : Prop :=
  ∀ s : State, s.nextOp = some (waitOp s.hpc) →
    (∀ w k, s.latch = some { word := w, wait := k + 1 } → ∃ v, v.getLsbD 0 = true ∧ step s = .next { s with
      latch := some { word := w, wait := k }, resp := .word v }) ∧
    (s.latch = none → ∃ v, v.getLsbD 0 = false ∧ step s = .next { s with
      hpc := s.hpc + 1, resp := .word v })
end

