-- ==== Sys2Proof/Laws/Base32.lean ====
section
/-! SUPPORT. The laws of the codec's own functions: packed bits, the alphabet, kept characters, lengths. -/

namespace Sys2Proof.Machine

/-! ### Packed bits -/

/-- Bit `i` of a packed value, counted from the most significant, is the `i`-th bit packed. -/
theorem packMsb_getMsbD (f : Nat → Bool) (n i : Nat) :
    (packMsb f n).getMsbD i = (decide (i < n) && f i) := by
  induction n generalizing i with
  | zero => simp
  | succ n ih =>
    have := ih i
    simp only [BitVec.getMsbD, packMsb] at *
    by_cases h : i < n
    · have h1 : n + 1 - 1 - i = (n - 1 - i) + 1 := by omega
      have h2 : i < n + 1 := by omega
      rw [h1, BitVec.getLsbD_concat_succ]
      simp_all
    · by_cases h2 : i = n
      · subst h2
        simp
      · have h3 : ¬ i < n + 1 := by omega
        simp [h3]

/-- Two values with the same bits, counted from the most significant, are equal. -/
theorem eq_of_getMsbD {n : Nat} {x y : BitVec n} (h : ∀ i, i < n → x.getMsbD i = y.getMsbD i) : x = y := by
  apply BitVec.eq_of_getMsbD_eq
  intro i hi
  exact h i hi

/-! ### The alphabet -/

/-- `INV` inverts `ALPHA` (R45). -/
theorem inv_alpha (v : Symbol) : inv (alpha v) = some v := by
  revert v; decide

/-- A symbol of the alphabet is folded to itself (R105). -/
theorem foldCase_alpha (v : Symbol) : foldCase (alpha v) = alpha v := by
  revert v; decide

/-- No symbol of the alphabet is the padding character (R100). -/
theorem alpha_ne_pad (v : Symbol) : alpha v ≠ 0x3D := by
  revert v; decide

/-! ### Kept characters -/

theorem keptFrom_length_le (text : List Byte) (i : Nat) : (keptFrom i text).length ≤ text.length := by
  induction text generalizing i with
  | nil => simp [keptFrom]
  | cons c cs ih =>
    simp only [keptFrom]
    have := ih (i + 1)
    split <;> simp only [List.length_cons] <;> omega

/-- The index of a kept character is an index of the text. -/
theorem keptFrom_index {text : List Byte} {i : Nat} {k : Nat × Byte} (h : k ∈ keptFrom i text) :
    i ≤ k.1 ∧ k.1 < i + text.length := by
  induction text generalizing i with
  | nil => cases h
  | cons c cs ih =>
    simp only [keptFrom] at h
    simp only [List.length_cons]
    split at h
    · have := ih h; omega
    · rcases List.mem_cons.mp h with h | h
      · subst h; simp
      · have := ih h; omega

theorem firstInvalid_mem {ks : List (Nat × Byte)} {i : Nat} (h : firstInvalid ks = some i) :
    ∃ c, (i, c) ∈ ks ∧ inv c = none := by
  induction ks with
  | nil => cases h
  | cons k ks ih =>
    obtain ⟨j, c⟩ := k
    simp only [firstInvalid] at h
    split at h
    · rename_i hc
      cases h
      exact ⟨c, List.mem_cons_self, hc⟩
    · obtain ⟨c', h1, h2⟩ := ih h
      exact ⟨c', List.mem_cons_of_mem _ h1, h2⟩

/-- No character is invalid exactly when every kept character is in the alphabet (R107). -/
theorem firstInvalid_none_iff (ks : List (Nat × Byte)) :
    firstInvalid ks = none ↔ ∀ k ∈ ks, (inv k.2).isSome = true := by
  induction ks with
  | nil => simp [firstInvalid]
  | cons k ks ih =>
    obtain ⟨j, c⟩ := k
    simp only [firstInvalid, List.forall_mem_cons]
    cases hc : inv c with
    | none => simp
    | some v => simp [ih]

/-- A reported index is an index of the text. -/
theorem firstInvalid_lt {text : List Byte} {i : Nat} (h : firstInvalid (kept text) = some i) :
    i < text.length := by
  obtain ⟨c, hc, -⟩ := firstInvalid_mem h
  have := keptFrom_index hc
  simpa using this

/-- The kept characters of a text of alphabet symbols are all of them. -/
theorem keptFrom_alpha (vs : List Symbol) (i : Nat) :
    (keptFrom i (vs.map alpha)).map (fun k => k.2) = vs.map alpha := by
  induction vs generalizing i with
  | nil => rfl
  | cons v vs ih =>
    rw [List.map_cons, keptFrom, foldCase_alpha, if_neg (alpha_ne_pad v), List.map_cons, ih]

/-- A text of alphabet symbols has no invalid character. -/
theorem firstInvalid_alpha (vs : List Symbol) : firstInvalid (kept (vs.map alpha)) = none := by
  rw [firstInvalid_none_iff]
  intro k hk
  have : k.2 ∈ (kept (vs.map alpha)).map (fun k => k.2) := List.mem_map_of_mem hk
  rw [kept, keptFrom_alpha] at this
  obtain ⟨v, -, hv⟩ := List.mem_map.mp this
  rw [← hv, inv_alpha]
  rfl

/-- The symbol values of a text of alphabet symbols are the symbols. -/
theorem symbolValues_alpha (vs : List Symbol) : symbolValues (kept (vs.map alpha)) = vs := by
  have h : symbolValues (kept (vs.map alpha)) =
      ((kept (vs.map alpha)).map (fun k => k.2)).map (fun c => (inv c).getD 0) := by
    simp [symbolValues]
  rw [h, kept, keptFrom_alpha, List.map_map]
  calc vs.map ((fun c => (inv c).getD 0) ∘ alpha) = vs.map id := by
        apply List.map_congr_left; intro v _; simp [inv_alpha]
    _ = vs := List.map_id vs

theorem kept_alpha_length (vs : List Symbol) : (kept (vs.map alpha)).length = vs.length := by
  have := congrArg List.length (keptFrom_alpha vs 0)
  simpa [kept] using this

/-! ### Lengths -/

@[simp] theorem base32Encode_length (bs : List Byte) : (base32Encode bs).length = encodedLen bs.length := by
  simp [base32Encode]

@[simp] theorem base32Decode_length (vs : List Symbol) : (base32Decode vs).length = decodedLen vs.length := by
  simp [base32Decode]

@[simp] theorem symbolValues_length (ks : List (Nat × Byte)) : (symbolValues ks).length = ks.length := by
  simp [symbolValues]

/-- The two length laws fit together (R109). -/
theorem decodedLen_encodedLen (n : Nat) : decodedLen (encodedLen n) = n := by
  simp only [decodedLen, encodedLen]; omega

/-! ### The bits -/

/-- The encoded text as a map of symbols. -/
theorem base32Encode_eq_map (bs : List Byte) :
    base32Encode bs = ((List.range (encodedLen bs.length)).map (encodedSymbol bs)).map alpha := by
  simp [base32Encode, List.map_map, Function.comp_def]

/-- The symbol stream of the encoding is the byte stream, as long as it lasts. -/
theorem symbolStreamBit_encoded (bs : List Byte) (i : Nat) (h : i < 5 * encodedLen bs.length) :
    symbolStreamBit ((List.range (encodedLen bs.length)).map (encodedSymbol bs)) i = byteStreamBit bs i := by
  have h1 : i / 5 < encodedLen bs.length := by omega
  have h2 : i % 5 < 5 := Nat.mod_lt _ (by omega)
  have h3 : 5 * (i / 5) + i % 5 = i := Nat.div_add_mod i 5
  simp only [symbolStreamBit, encodedSymbol, List.getD_eq_getElem?_getD, List.getElem?_map,
    List.getElem?_range h1, Option.map_some, Option.getD_some, packMsb_getMsbD, h2, decide_true,
    Bool.true_and, h3]

/-- The bits of the symbols of an encoding decode to the bytes that were encoded (R109). -/
theorem base32Decode_encodedSymbols (bs : List Byte) :
    base32Decode ((List.range (encodedLen bs.length)).map (encodedSymbol bs)) = bs := by
  apply List.ext_getElem
  · simp [decodedLen_encodedLen]
  · intro k h1 h2
    simp only [base32Decode, List.getElem_map, List.getElem_range, decodedByte]
    apply eq_of_getMsbD
    intro t ht
    have hlen : 8 * bs.length ≤ 5 * encodedLen bs.length := by simp only [encodedLen]; omega
    have h3 : 8 * k + t < 5 * encodedLen bs.length := by omega
    have h4 : (8 * k + t) / 8 = k := by omega
    have h5 : (8 * k + t) % 8 = t := by omega
    simp only [packMsb_getMsbD, ht, decide_true, Bool.true_and, symbolStreamBit_encoded bs _ h3,
      byteStreamBit, h4, h5, List.getD_eq_getElem?_getD, List.getElem?_eq_getElem h2, Option.getD_some]

end Sys2Proof.Machine
end

