-- ==== Sys2Proof/Laws/Memory.lean ====
section
/-! SUPPORT. The laws of the buffer bytes: a read after a write, byte sequences, the canonical form. -/

namespace Sys2Proof.Machine

/-! ### One byte -/

@[simp] theorem Memory.read_nil (a : Nat) : Memory.read [] a = none := rfl

/-- A read after a write: the byte written at its offset, the old byte anywhere else. -/
theorem Memory.read_write (m : Memory) (a : Nat) (v : Byte) (x : Nat) :
    (m.write a v).read x = if x = a then some v else m.read x := by
  induction m with
  | nil => simp only [Memory.write, Memory.read, eq_comm]
  | cons c m ih =>
    obtain ⟨b, w⟩ := c
    simp only [Memory.write]
    split
    · simp only [Memory.read, eq_comm]
    · split
      · rename_i h1 h2
        subst h2
        simp only [Memory.read]
        split
        · rename_i h; simp [h]
        · rename_i h; simp [Ne.symm h]
      · rename_i h1 h2
        simp only [Memory.read, ih]
        split
        · rename_i h
          have : ¬ x = a := fun h' => h2 (h'.symm.trans h.symm)
          simp [this]
        · rfl

@[simp] theorem Memory.read_write_same (m : Memory) (a : Nat) (v : Byte) : (m.write a v).read a = some v := by
  simp [Memory.read_write]

theorem Memory.read_write_other {m : Memory} {a x : Nat} {v : Byte} (h : x ≠ a) :
    (m.write a v).read x = m.read x := by
  simp [Memory.read_write, h]

/-! ### Byte sequences -/

/-- A read after a write of a byte sequence. -/
theorem Memory.read_writeBytes (m : Memory) (vs : List Byte) (a x : Nat) :
    (m.writeBytes a vs).read x =
      if a ≤ x ∧ x < a + vs.length then vs[x - a]? else m.read x := by
  induction vs generalizing a with
  | nil => simp [Memory.writeBytes]
  | cons v vs ih =>
    simp only [Memory.writeBytes, Memory.read_write, ih, List.length_cons]
    by_cases h : x = a
    · simp [h]
    · by_cases h2 : a + 1 ≤ x ∧ x < a + 1 + vs.length
      · have h3 : a ≤ x ∧ x < a + (vs.length + 1) := by omega
        have h4 : x - a = (x - (a + 1)) + 1 := by omega
        simp only [h, if_false, if_pos h2, if_pos h3]
        rw [h4, List.getElem?_cons_succ]
      · have h3 : ¬(a ≤ x ∧ x < a + (vs.length + 1)) := by omega
        rw [if_neg h, if_neg h2, if_neg h3]

theorem Memory.read_writeBytes_at {m : Memory} {vs : List Byte} {a i : Nat} (h : i < vs.length) :
    (m.writeBytes a vs).read (a + i) = vs[i]? := by
  have h1 : a ≤ a + i ∧ a + i < a + vs.length := by omega
  rw [Memory.read_writeBytes, if_pos h1]
  congr 1
  omega

/-- A write of a byte sequence leaves every byte outside it alone. -/
theorem Memory.writeBytes_sameOutside (m : Memory) (a : Nat) (vs : List Byte) :
    m.SameOutside (m.writeBytes a vs) a vs.length := by
  intro x hx
  rw [Memory.read_writeBytes, if_neg hx]

/-- Reading a byte sequence succeeds with `vs` exactly when every byte has the value of `vs`. -/
theorem Memory.readBytes_ok_iff (m : Memory) (a n : Nat) (vs : List Byte) :
    m.readBytes a n = .ok vs ↔ vs.length = n ∧ ∀ i, (h : i < vs.length) → m.read (a + i) = some vs[i] := by
  induction n generalizing a vs with
  | zero =>
    constructor
    · intro h
      simp only [Memory.readBytes, Except.ok.injEq] at h
      subst h; simp
    · rintro ⟨h, -⟩
      simp [Memory.readBytes, List.length_eq_zero_iff.mp h]
  | succ n ih =>
    simp only [Memory.readBytes]
    cases hr : m.read a with
    | none =>
      simp only [reduceCtorEq, false_iff, not_and]
      intro hl h
      have := h 0 (by omega)
      simp [hr] at this
    | some v =>
      cases hb : m.readBytes (a + 1) n with
      | error e =>
        simp only [reduceCtorEq, false_iff, not_and]
        intro hl h
        have h2 : m.readBytes (a + 1) n = .ok vs.tail := by
          rw [ih]
          refine ⟨by simp [hl], fun i hi => ?_⟩
          have hi' : i + 1 < vs.length := by
            have : i < vs.length - 1 := by simpa using hi
            omega
          have := h (i + 1) hi'
          rw [List.getElem_tail]
          rw [← this]; congr 1; omega
        rw [hb] at h2; cases h2
      | ok ws =>
        have hw := (ih (a + 1) ws).mp hb
        simp only [Except.ok.injEq]
        constructor
        · rintro rfl
          refine ⟨by simp [hw.1], fun i hi => ?_⟩
          cases i with
          | zero => simpa using hr
          | succ i =>
            have := hw.2 i (by simpa using hi)
            simp only [List.getElem_cons_succ, ← this]
            congr 1; omega
        · rintro ⟨hl, h⟩
          refine List.ext_getElem (by simp [hw.1, hl]) fun i h1 h2 => ?_
          cases i with
          | zero =>
            have := h 0 h2
            simp only [Nat.add_zero, hr, Option.some.injEq] at this
            simpa using this
          | succ i =>
            have e1 := hw.2 i (by simpa using h1)
            have e2 := h (i + 1) h2
            have : a + (i + 1) = a + 1 + i := by omega
            rw [this, e1] at e2
            simpa using e2

/-- Reading a byte sequence fails exactly at its first byte that has no value. -/
theorem Memory.readBytes_error {m : Memory} {a n : Nat} {e : Fault} (h : m.readBytes a n = .error e) :
    ∃ i, i < n ∧ m.read (a + i) = none ∧ (∀ j, j < i → (m.read (a + j)).isSome = true) ∧
      e = .unwrittenRead (a + i) := by
  induction n generalizing a with
  | zero => simp [Memory.readBytes] at h
  | succ n ih =>
    simp only [Memory.readBytes] at h
    cases hr : m.read a with
    | none =>
      rw [hr] at h
      simp only [Except.error.injEq] at h
      exact ⟨0, by omega, by simpa using hr, by omega, by simp [← h]⟩
    | some v =>
      rw [hr] at h
      cases hb : m.readBytes (a + 1) n with
      | ok ws => rw [hb] at h; simp at h
      | error e' =>
        rw [hb] at h
        simp only [Except.error.injEq] at h
        subst h
        obtain ⟨i, hi, h1, h2, h3⟩ := ih hb
        refine ⟨i + 1, by omega, by rw [← h1]; congr 1; omega, fun j hj => ?_, by rw [h3]; congr 1; omega⟩
        cases j with
        | zero => simp [hr]
        | succ j =>
          have := h2 j (by omega)
          have e : a + (j + 1) = a + 1 + j := by omega
          rw [e]; exact this

/-- Where every byte has a value, the read of the sequence succeeds. -/
theorem Memory.readBytes_of_written {m : Memory} {a n : Nat}
    (h : ∀ i, i < n → (m.read (a + i)).isSome = true) : ∃ vs, m.readBytes a n = .ok vs ∧ vs.length = n := by
  cases hr : m.readBytes a n with
  | ok vs => exact ⟨vs, rfl, ((m.readBytes_ok_iff a n vs).mp hr).1⟩
  | error e =>
    obtain ⟨i, hi, h1, -, -⟩ := Memory.readBytes_error hr
    have := h i hi
    simp [h1] at this

/-- A sequence whose first byte without a value is byte `i` faults there. -/
theorem Memory.readBytes_first {m : Memory} {a n i : Nat} (hi : i < n) (h : m.read (a + i) = none)
    (hb : ∀ j, j < i → (m.read (a + j)).isSome = true) : m.readBytes a n = .error (.unwrittenRead (a + i)) := by
  cases hr : m.readBytes a n with
  | ok vs =>
    have := (m.readBytes_ok_iff a n vs).mp hr
    have := this.2 i (by omega)
    simp [h] at this
  | error e =>
    obtain ⟨k, hk, h1, h2, h3⟩ := Memory.readBytes_error hr
    have : k = i := by
      rcases Nat.lt_trichotomy k i with h' | h' | h'
      · have := hb k h'; simp [h1] at this
      · exact h'
      · have := h2 i h'; simp [h] at this
    rw [h3, this]

/-- Reads that agree byte for byte give the same sequence. -/
theorem Memory.readBytes_congr {m m' : Memory} {a n : Nat} (h : ∀ i, i < n → m.read (a + i) = m'.read (a + i)) :
    m.readBytes a n = m'.readBytes a n := by
  induction n generalizing a with
  | zero => rfl
  | succ n ih =>
    have h0 := h 0 (by omega)
    simp only [Nat.add_zero] at h0
    have hr := ih (a := a + 1) fun i hi => by
      have := h (i + 1) (by omega)
      have e : a + (i + 1) = a + 1 + i := by omega
      rwa [e] at this
    simp only [Memory.readBytes, h0, hr]

/-! ### The canonical form -/

theorem Memory.risingFrom_mono {m : Memory} {lo lo' : Nat} (h : lo' ≤ lo) (hm : m.risingFrom lo = true) :
    m.risingFrom lo' = true := by
  cases m with
  | nil => rfl
  | cons c m =>
    obtain ⟨a, b⟩ := c
    simp only [Memory.risingFrom, Bool.and_eq_true, decide_eq_true_eq] at hm ⊢
    exact ⟨Nat.le_trans h hm.1, hm.2⟩

theorem Memory.write_risingFrom {m : Memory} {lo a : Nat} {v : Byte} (hm : m.risingFrom lo = true)
    (h : lo ≤ a) : (m.write a v).risingFrom lo = true := by
  induction m generalizing lo with
  | nil => simp [Memory.write, Memory.risingFrom, h]
  | cons c m ih =>
    obtain ⟨b, w⟩ := c
    simp only [Memory.risingFrom, Bool.and_eq_true, decide_eq_true_eq] at hm
    simp only [Memory.write]
    split
    · simp only [Memory.risingFrom, Bool.and_eq_true, decide_eq_true_eq]
      exact ⟨h, by omega, hm.2⟩
    · split
      · rename_i h1 h2
        subst h2
        simp [Memory.risingFrom, h, hm.2]
      · simp only [Memory.risingFrom, Bool.and_eq_true, decide_eq_true_eq]
        exact ⟨hm.1, ih hm.2 (by omega)⟩

/-- A write keeps the canonical form. -/
theorem Memory.write_wf {m : Memory} {a : Nat} {v : Byte} (hm : m.wf = true) : (m.write a v).wf = true :=
  Memory.write_risingFrom hm (Nat.zero_le a)

/-- A write of a byte sequence keeps the canonical form. -/
theorem Memory.writeBytes_wf {m : Memory} {a : Nat} {vs : List Byte} (hm : m.wf = true) :
    (m.writeBytes a vs).wf = true := by
  induction vs generalizing a with
  | nil => exact hm
  | cons v vs ih => exact Memory.write_wf ih

/-- The reset memory has the canonical form. -/
theorem Memory.reset_wf : State.reset.mem.wf = true := rfl

/-- What a write lists. -/
theorem Memory.mem_write {m : Memory} {a : Nat} {v : Byte} {c : Host.Cell} (h : c ∈ m.write a v) :
    c.1 = a ∨ c ∈ m := by
  induction m with
  | nil => simp only [Memory.write, List.mem_singleton] at h; simp [h]
  | cons d m ih =>
    obtain ⟨b, w⟩ := d
    simp only [Memory.write] at h
    split at h
    · rcases List.mem_cons.mp h with h | h
      · exact .inl (by rw [h])
      · exact .inr h
    · split at h
      · rcases List.mem_cons.mp h with h | h
        · exact .inl (by rw [h])
        · exact .inr (List.mem_cons_of_mem _ h)
      · rcases List.mem_cons.mp h with h | h
        · exact .inr (by rw [h]; exact List.mem_cons_self)
        · exact (ih h).imp id (List.mem_cons_of_mem _)

/-- What a write of a byte sequence lists. -/
theorem Memory.mem_writeBytes {m : Memory} {a : Nat} {vs : List Byte} {c : Host.Cell}
    (h : c ∈ m.writeBytes a vs) : (a ≤ c.1 ∧ c.1 < a + vs.length) ∨ c ∈ m := by
  induction vs generalizing a with
  | nil => exact .inr h
  | cons v vs ih =>
    rcases Memory.mem_write h with h | h
    · exact .inl (by simp [h])
    · rcases ih h with h | h
      · exact .inl (by simp only [List.length_cons]; omega)
      · exact .inr h

/-- In canonical form an offset that is listed reads as a value. -/
theorem Memory.read_isSome_of_mem {m : Memory} {c : Host.Cell} (h : c ∈ m) : (m.read c.1).isSome = true := by
  induction m with
  | nil => cases h
  | cons d m ih =>
    obtain ⟨b, w⟩ := d
    simp only [Memory.read]
    split
    · rfl
    · rename_i hne
      rcases List.mem_cons.mp h with h | h
      · exact absurd (by rw [h]) hne
      · exact ih h

/-! ### Free bytes, and what goes on after a read -/

theorem freeBytes_length (start k : Nat) : (freeBytes start k).length = k := by simp [freeBytes]

/-- What `onBytes` can do. -/
theorem onBytes_cases {α : Type} (r : Except Fault α) (k : α → Host.Outcome State Fault Refusal) :
    (∃ e, r = .error e ∧ onBytes r k = .fault e) ∨ (∃ a, r = .ok a ∧ onBytes r k = k a) := by
  cases r with
  | error e => exact .inl ⟨e, rfl, rfl⟩
  | ok a => exact .inr ⟨a, rfl, rfl⟩

/-- If `onBytes` answers a next state, the read succeeded. -/
theorem onBytes_next {α : Type} {r : Except Fault α} {k : α → Host.Outcome State Fault Refusal} {t : State}
    (h : onBytes r k = .next t) : ∃ a, r = .ok a ∧ k a = .next t := by
  cases r with
  | error e => cases h
  | ok a => exact ⟨a, rfl, h⟩

end Sys2Proof.Machine
end

