-- ==== Sys2Proof/Laws/State.lean ====
section
/-! SUPPORT. One lemma per field per state update, true by definition, so that no proof unfolds a record
update. -/

namespace Sys2Proof.Machine

@[simp] theorem State.writeAt_cfg (s : State) (a : Nat) (vs : List Byte) : (s.writeAt a vs).cfg = s.cfg := rfl
@[simp] theorem State.writeAt_ctrlIe (s : State) (a : Nat) (vs : List Byte) :
    (s.writeAt a vs).ctrlIe = s.ctrlIe := rfl
@[simp] theorem State.writeAt_status (s : State) (a : Nat) (vs : List Byte) :
    (s.writeAt a vs).status = s.status := rfl
@[simp] theorem State.writeAt_ilen (s : State) (a : Nat) (vs : List Byte) : (s.writeAt a vs).ilen = s.ilen := rfl
@[simp] theorem State.writeAt_olen (s : State) (a : Nat) (vs : List Byte) : (s.writeAt a vs).olen = s.olen := rfl
@[simp] theorem State.writeAt_errpos (s : State) (a : Nat) (vs : List Byte) :
    (s.writeAt a vs).errpos = s.errpos := rfl
@[simp] theorem State.writeAt_ctrLo (s : State) (a : Nat) (vs : List Byte) :
    (s.writeAt a vs).ctrLo = s.ctrLo := rfl
@[simp] theorem State.writeAt_ctrHi (s : State) (a : Nat) (vs : List Byte) :
    (s.writeAt a vs).ctrHi = s.ctrHi := rfl
@[simp] theorem State.writeAt_trunc (s : State) (a : Nat) (vs : List Byte) :
    (s.writeAt a vs).trunc = s.trunc := rfl
@[simp] theorem State.writeAt_codeval (s : State) (a : Nat) (vs : List Byte) :
    (s.writeAt a vs).codeval = s.codeval := rfl
@[simp] theorem State.writeAt_candlen (s : State) (a : Nat) (vs : List Byte) :
    (s.writeAt a vs).candlen = s.candlen := rfl
@[simp] theorem State.writeAt_mem (s : State) (a : Nat) (vs : List Byte) :
    (s.writeAt a vs).mem = s.mem.writeBytes a vs := rfl
@[simp] theorem State.writeAt_latch (s : State) (a : Nat) (vs : List Byte) :
    (s.writeAt a vs).latch = s.latch := rfl
@[simp] theorem State.writeAt_script (s : State) (a : Nat) (vs : List Byte) :
    (s.writeAt a vs).script = s.script := rfl
@[simp] theorem State.writeAt_hpc (s : State) (a : Nat) (vs : List Byte) : (s.writeAt a vs).hpc = s.hpc := rfl
@[simp] theorem State.writeAt_resp (s : State) (a : Nat) (vs : List Byte) : (s.writeAt a vs).resp = s.resp := rfl
@[simp] theorem State.writeAt_draws (s : State) (a : Nat) (vs : List Byte) :
    (s.writeAt a vs).draws = s.draws := rfl

@[simp] theorem State.drawBytes_cfg (s : State) (a k : Nat) : (s.drawBytes a k).cfg = s.cfg := rfl
@[simp] theorem State.drawBytes_ctrlIe (s : State) (a k : Nat) : (s.drawBytes a k).ctrlIe = s.ctrlIe := rfl
@[simp] theorem State.drawBytes_status (s : State) (a k : Nat) : (s.drawBytes a k).status = s.status := rfl
@[simp] theorem State.drawBytes_ilen (s : State) (a k : Nat) : (s.drawBytes a k).ilen = s.ilen := rfl
@[simp] theorem State.drawBytes_olen (s : State) (a k : Nat) : (s.drawBytes a k).olen = s.olen := rfl
@[simp] theorem State.drawBytes_errpos (s : State) (a k : Nat) : (s.drawBytes a k).errpos = s.errpos := rfl
@[simp] theorem State.drawBytes_ctrLo (s : State) (a k : Nat) : (s.drawBytes a k).ctrLo = s.ctrLo := rfl
@[simp] theorem State.drawBytes_ctrHi (s : State) (a k : Nat) : (s.drawBytes a k).ctrHi = s.ctrHi := rfl
@[simp] theorem State.drawBytes_trunc (s : State) (a k : Nat) : (s.drawBytes a k).trunc = s.trunc := rfl
@[simp] theorem State.drawBytes_codeval (s : State) (a k : Nat) : (s.drawBytes a k).codeval = s.codeval := rfl
@[simp] theorem State.drawBytes_candlen (s : State) (a k : Nat) : (s.drawBytes a k).candlen = s.candlen := rfl
@[simp] theorem State.drawBytes_mem (s : State) (a k : Nat) :
    (s.drawBytes a k).mem = s.mem.writeBytes a (freeBytes s.draws k) := rfl
@[simp] theorem State.drawBytes_latch (s : State) (a k : Nat) : (s.drawBytes a k).latch = s.latch := rfl
@[simp] theorem State.drawBytes_script (s : State) (a k : Nat) : (s.drawBytes a k).script = s.script := rfl
@[simp] theorem State.drawBytes_hpc (s : State) (a k : Nat) : (s.drawBytes a k).hpc = s.hpc := rfl
@[simp] theorem State.drawBytes_resp (s : State) (a k : Nat) : (s.drawBytes a k).resp = s.resp := rfl
@[simp] theorem State.drawBytes_draws (s : State) (a k : Nat) : (s.drawBytes a k).draws = s.draws + k := rfl

@[simp] theorem State.accept_cfg (s : State) (v : Word) : (s.accept v).cfg = s.cfg := rfl
@[simp] theorem State.accept_ctrlIe (s : State) (v : Word) : (s.accept v).ctrlIe = s.ctrlIe := rfl
@[simp] theorem State.accept_status (s : State) (v : Word) : (s.accept v).status = s.status.accepted := rfl
@[simp] theorem State.accept_ilen (s : State) (v : Word) : (s.accept v).ilen = s.ilen := rfl
@[simp] theorem State.accept_olen (s : State) (v : Word) : (s.accept v).olen = s.olen := rfl
@[simp] theorem State.accept_errpos (s : State) (v : Word) : (s.accept v).errpos = s.errpos := rfl
@[simp] theorem State.accept_ctrLo (s : State) (v : Word) : (s.accept v).ctrLo = s.ctrLo := rfl
@[simp] theorem State.accept_ctrHi (s : State) (v : Word) : (s.accept v).ctrHi = s.ctrHi := rfl
@[simp] theorem State.accept_trunc (s : State) (v : Word) : (s.accept v).trunc = s.trunc := rfl
@[simp] theorem State.accept_codeval (s : State) (v : Word) : (s.accept v).codeval = s.codeval := rfl
@[simp] theorem State.accept_candlen (s : State) (v : Word) : (s.accept v).candlen = s.candlen := rfl
@[simp] theorem State.accept_mem (s : State) (v : Word) : (s.accept v).mem = s.mem := rfl
@[simp] theorem State.accept_latch (s : State) (v : Word) :
    (s.accept v).latch = some { word := v, wait := Config.latExtra (opcOf v) s.ilen } := rfl
@[simp] theorem State.accept_script (s : State) (v : Word) : (s.accept v).script = s.script := rfl
@[simp] theorem State.accept_hpc (s : State) (v : Word) : (s.accept v).hpc = s.hpc := rfl
@[simp] theorem State.accept_resp (s : State) (v : Word) : (s.accept v).resp = s.resp := rfl
@[simp] theorem State.accept_draws (s : State) (v : Word) : (s.accept v).draws = s.draws := rfl

@[simp] theorem State.finish_cfg (s : State) (n : Nat) (m l : Bool) : (s.finish n m l).cfg = s.cfg := rfl
@[simp] theorem State.finish_ctrlIe (s : State) (n : Nat) (m l : Bool) : (s.finish n m l).ctrlIe = s.ctrlIe := rfl
@[simp] theorem State.finish_status (s : State) (n : Nat) (m l : Bool) :
    (s.finish n m l).status = s.status.completed m l := rfl
@[simp] theorem State.finish_ilen (s : State) (n : Nat) (m l : Bool) : (s.finish n m l).ilen = s.ilen := rfl
@[simp] theorem State.finish_olen (s : State) (n : Nat) (m l : Bool) :
    (s.finish n m l).olen = BitVec.ofNat 16 n := rfl
@[simp] theorem State.finish_errpos (s : State) (n : Nat) (m l : Bool) : (s.finish n m l).errpos = 0 := rfl
@[simp] theorem State.finish_ctrLo (s : State) (n : Nat) (m l : Bool) : (s.finish n m l).ctrLo = s.ctrLo := rfl
@[simp] theorem State.finish_ctrHi (s : State) (n : Nat) (m l : Bool) : (s.finish n m l).ctrHi = s.ctrHi := rfl
@[simp] theorem State.finish_trunc (s : State) (n : Nat) (m l : Bool) : (s.finish n m l).trunc = s.trunc := rfl
@[simp] theorem State.finish_codeval (s : State) (n : Nat) (m l : Bool) :
    (s.finish n m l).codeval = s.codeval := rfl
@[simp] theorem State.finish_candlen (s : State) (n : Nat) (m l : Bool) :
    (s.finish n m l).candlen = s.candlen := rfl
@[simp] theorem State.finish_mem (s : State) (n : Nat) (m l : Bool) : (s.finish n m l).mem = s.mem := rfl
@[simp] theorem State.finish_latch (s : State) (n : Nat) (m l : Bool) : (s.finish n m l).latch = none := rfl
@[simp] theorem State.finish_script (s : State) (n : Nat) (m l : Bool) : (s.finish n m l).script = s.script := rfl
@[simp] theorem State.finish_hpc (s : State) (n : Nat) (m l : Bool) : (s.finish n m l).hpc = s.hpc := rfl
@[simp] theorem State.finish_resp (s : State) (n : Nat) (m l : Bool) : (s.finish n m l).resp = s.resp := rfl
@[simp] theorem State.finish_draws (s : State) (n : Nat) (m l : Bool) : (s.finish n m l).draws = s.draws := rfl


@[simp] theorem State.blockError_cfg (s : State) (c : ErrCode) (p : Nat) : (s.blockError c p).cfg = s.cfg := rfl
@[simp] theorem State.blockError_ctrlIe (s : State) (c : ErrCode) (p : Nat) :
    (s.blockError c p).ctrlIe = s.ctrlIe := rfl
@[simp] theorem State.blockError_status (s : State) (c : ErrCode) (p : Nat) :
    (s.blockError c p).status = s.status.failed c := rfl
@[simp] theorem State.blockError_ilen (s : State) (c : ErrCode) (p : Nat) : (s.blockError c p).ilen = s.ilen := rfl
@[simp] theorem State.blockError_olen (s : State) (c : ErrCode) (p : Nat) : (s.blockError c p).olen = 0 := rfl
@[simp] theorem State.blockError_errpos (s : State) (c : ErrCode) (p : Nat) :
    (s.blockError c p).errpos = BitVec.ofNat 16 p := rfl
@[simp] theorem State.blockError_ctrLo (s : State) (c : ErrCode) (p : Nat) :
    (s.blockError c p).ctrLo = s.ctrLo := rfl
@[simp] theorem State.blockError_ctrHi (s : State) (c : ErrCode) (p : Nat) :
    (s.blockError c p).ctrHi = s.ctrHi := rfl
@[simp] theorem State.blockError_trunc (s : State) (c : ErrCode) (p : Nat) :
    (s.blockError c p).trunc = s.trunc := rfl
@[simp] theorem State.blockError_codeval (s : State) (c : ErrCode) (p : Nat) :
    (s.blockError c p).codeval = s.codeval := rfl
@[simp] theorem State.blockError_candlen (s : State) (c : ErrCode) (p : Nat) :
    (s.blockError c p).candlen = s.candlen := rfl
@[simp] theorem State.blockError_mem (s : State) (c : ErrCode) (p : Nat) : (s.blockError c p).mem = s.mem := rfl
@[simp] theorem State.blockError_latch (s : State) (c : ErrCode) (p : Nat) : (s.blockError c p).latch = none := rfl
@[simp] theorem State.blockError_script (s : State) (c : ErrCode) (p : Nat) :
    (s.blockError c p).script = s.script := rfl
@[simp] theorem State.blockError_hpc (s : State) (c : ErrCode) (p : Nat) : (s.blockError c p).hpc = s.hpc := rfl
@[simp] theorem State.blockError_resp (s : State) (c : ErrCode) (p : Nat) : (s.blockError c p).resp = s.resp := rfl
@[simp] theorem State.blockError_draws (s : State) (c : ErrCode) (p : Nat) :
    (s.blockError c p).draws = s.draws := rfl

@[simp] theorem State.truncate_cfg (s : State) (d : List Byte) : (s.truncate d).cfg = s.cfg := by
  simp only [State.truncate, State.writeAt_cfg]
@[simp] theorem State.truncate_ctrlIe (s : State) (d : List Byte) : (s.truncate d).ctrlIe = s.ctrlIe := by
  simp only [State.truncate, State.writeAt_ctrlIe]
@[simp] theorem State.truncate_status (s : State) (d : List Byte) : (s.truncate d).status = s.status := by
  simp only [State.truncate, State.writeAt_status]
@[simp] theorem State.truncate_ilen (s : State) (d : List Byte) : (s.truncate d).ilen = s.ilen := by
  simp only [State.truncate, State.writeAt_ilen]
@[simp] theorem State.truncate_olen (s : State) (d : List Byte) : (s.truncate d).olen = s.olen := by
  simp only [State.truncate, State.writeAt_olen]
@[simp] theorem State.truncate_errpos (s : State) (d : List Byte) : (s.truncate d).errpos = s.errpos := by
  simp only [State.truncate, State.writeAt_errpos]
@[simp] theorem State.truncate_ctrLo (s : State) (d : List Byte) : (s.truncate d).ctrLo = s.ctrLo := by
  simp only [State.truncate, State.writeAt_ctrLo]
@[simp] theorem State.truncate_ctrHi (s : State) (d : List Byte) : (s.truncate d).ctrHi = s.ctrHi := by
  simp only [State.truncate, State.writeAt_ctrHi]
@[simp] theorem State.truncate_trunc (s : State) (d : List Byte) : (s.truncate d).trunc = truncValue d := by
  simp only [State.truncate]
@[simp] theorem State.truncate_codeval (s : State) (d : List Byte) :
    (s.truncate d).codeval = BitVec.ofNat 20 (codeOf (truncValue d)) := by
  simp only [State.truncate]
@[simp] theorem State.truncate_candlen (s : State) (d : List Byte) : (s.truncate d).candlen = s.candlen := by
  simp only [State.truncate, State.writeAt_candlen]
@[simp] theorem State.truncate_mem (s : State) (d : List Byte) :
    (s.truncate d).mem = (s.mem.writeBytes obufBase (codeDigits (codeOf (truncValue d)))).writeBytes expBase
      (codeDigits (codeOf (truncValue d))) := by
  simp only [State.truncate, State.writeAt_mem]
@[simp] theorem State.truncate_latch (s : State) (d : List Byte) : (s.truncate d).latch = s.latch := by
  simp only [State.truncate, State.writeAt_latch]
@[simp] theorem State.truncate_script (s : State) (d : List Byte) : (s.truncate d).script = s.script := by
  simp only [State.truncate, State.writeAt_script]
@[simp] theorem State.truncate_hpc (s : State) (d : List Byte) : (s.truncate d).hpc = s.hpc := by
  simp only [State.truncate, State.writeAt_hpc]
@[simp] theorem State.truncate_resp (s : State) (d : List Byte) : (s.truncate d).resp = s.resp := by
  simp only [State.truncate, State.writeAt_resp]
@[simp] theorem State.truncate_draws (s : State) (d : List Byte) : (s.truncate d).draws = s.draws := by
  simp only [State.truncate, State.writeAt_draws]

@[simp] theorem State.zeroBuffers_cfg (s : State) : s.zeroBuffers.cfg = s.cfg := by
  simp only [State.zeroBuffers, State.writeAt_cfg]
@[simp] theorem State.zeroBuffers_ctrlIe (s : State) : s.zeroBuffers.ctrlIe = s.ctrlIe := by
  simp only [State.zeroBuffers, State.writeAt_ctrlIe]
@[simp] theorem State.zeroBuffers_status (s : State) : s.zeroBuffers.status = s.status := by
  simp only [State.zeroBuffers, State.writeAt_status]
@[simp] theorem State.zeroBuffers_ilen (s : State) : s.zeroBuffers.ilen = s.ilen := by
  simp only [State.zeroBuffers, State.writeAt_ilen]
@[simp] theorem State.zeroBuffers_olen (s : State) : s.zeroBuffers.olen = s.olen := by
  simp only [State.zeroBuffers, State.writeAt_olen]
@[simp] theorem State.zeroBuffers_errpos (s : State) : s.zeroBuffers.errpos = s.errpos := by
  simp only [State.zeroBuffers, State.writeAt_errpos]
@[simp] theorem State.zeroBuffers_ctrLo (s : State) : s.zeroBuffers.ctrLo = s.ctrLo := by
  simp only [State.zeroBuffers, State.writeAt_ctrLo]
@[simp] theorem State.zeroBuffers_ctrHi (s : State) : s.zeroBuffers.ctrHi = s.ctrHi := by
  simp only [State.zeroBuffers, State.writeAt_ctrHi]
@[simp] theorem State.zeroBuffers_trunc (s : State) : s.zeroBuffers.trunc = s.trunc := by
  simp only [State.zeroBuffers, State.writeAt_trunc]
@[simp] theorem State.zeroBuffers_codeval (s : State) : s.zeroBuffers.codeval = s.codeval := by
  simp only [State.zeroBuffers, State.writeAt_codeval]
@[simp] theorem State.zeroBuffers_candlen (s : State) : s.zeroBuffers.candlen = s.candlen := by
  simp only [State.zeroBuffers, State.writeAt_candlen]
@[simp] theorem State.zeroBuffers_mem (s : State) :
    s.zeroBuffers.mem = (((s.mem.writeBytes obufBase (List.replicate s.cfg.obufSize 0)).writeBytes ibufBase
      (List.replicate s.cfg.ibufSize 0)).writeBytes candBase (List.replicate 6 0)).writeBytes expBase
      (List.replicate 6 0) := by
  simp only [State.zeroBuffers, State.writeAt_mem]
@[simp] theorem State.zeroBuffers_latch (s : State) : s.zeroBuffers.latch = s.latch := by
  simp only [State.zeroBuffers, State.writeAt_latch]
@[simp] theorem State.zeroBuffers_script (s : State) : s.zeroBuffers.script = s.script := by
  simp only [State.zeroBuffers, State.writeAt_script]
@[simp] theorem State.zeroBuffers_hpc (s : State) : s.zeroBuffers.hpc = s.hpc := by
  simp only [State.zeroBuffers, State.writeAt_hpc]
@[simp] theorem State.zeroBuffers_resp (s : State) : s.zeroBuffers.resp = s.resp := by
  simp only [State.zeroBuffers, State.writeAt_resp]
@[simp] theorem State.zeroBuffers_draws (s : State) : s.zeroBuffers.draws = s.draws := by
  simp only [State.zeroBuffers, State.writeAt_draws]

@[simp] theorem State.zeroRegisters_cfg (s : State) : s.zeroRegisters.cfg = s.cfg := rfl
@[simp] theorem State.zeroRegisters_ctrlIe (s : State) : s.zeroRegisters.ctrlIe = s.ctrlIe := rfl
@[simp] theorem State.zeroRegisters_status (s : State) : s.zeroRegisters.status = s.status := rfl
@[simp] theorem State.zeroRegisters_ilen (s : State) : s.zeroRegisters.ilen = 0 := rfl
@[simp] theorem State.zeroRegisters_olen (s : State) : s.zeroRegisters.olen = s.olen := rfl
@[simp] theorem State.zeroRegisters_errpos (s : State) : s.zeroRegisters.errpos = s.errpos := rfl
@[simp] theorem State.zeroRegisters_ctrLo (s : State) : s.zeroRegisters.ctrLo = 0 := rfl
@[simp] theorem State.zeroRegisters_ctrHi (s : State) : s.zeroRegisters.ctrHi = 0 := rfl
@[simp] theorem State.zeroRegisters_trunc (s : State) : s.zeroRegisters.trunc = 0 := rfl
@[simp] theorem State.zeroRegisters_codeval (s : State) : s.zeroRegisters.codeval = 0 := rfl
@[simp] theorem State.zeroRegisters_candlen (s : State) : s.zeroRegisters.candlen = 0 := rfl
@[simp] theorem State.zeroRegisters_mem (s : State) : s.zeroRegisters.mem = s.mem := rfl
@[simp] theorem State.zeroRegisters_latch (s : State) : s.zeroRegisters.latch = s.latch := rfl
@[simp] theorem State.zeroRegisters_script (s : State) : s.zeroRegisters.script = s.script := rfl
@[simp] theorem State.zeroRegisters_hpc (s : State) : s.zeroRegisters.hpc = s.hpc := rfl
@[simp] theorem State.zeroRegisters_resp (s : State) : s.zeroRegisters.resp = s.resp := rfl
@[simp] theorem State.zeroRegisters_draws (s : State) : s.zeroRegisters.draws = s.draws := rfl

@[simp] theorem State.respond_cfg (s : State) (r : BusResponse) : (s.respond r).cfg = s.cfg := rfl
@[simp] theorem State.respond_ctrlIe (s : State) (r : BusResponse) : (s.respond r).ctrlIe = s.ctrlIe := rfl
@[simp] theorem State.respond_status (s : State) (r : BusResponse) : (s.respond r).status = s.status := rfl
@[simp] theorem State.respond_ilen (s : State) (r : BusResponse) : (s.respond r).ilen = s.ilen := rfl
@[simp] theorem State.respond_olen (s : State) (r : BusResponse) : (s.respond r).olen = s.olen := rfl
@[simp] theorem State.respond_errpos (s : State) (r : BusResponse) : (s.respond r).errpos = s.errpos := rfl
@[simp] theorem State.respond_ctrLo (s : State) (r : BusResponse) : (s.respond r).ctrLo = s.ctrLo := rfl
@[simp] theorem State.respond_ctrHi (s : State) (r : BusResponse) : (s.respond r).ctrHi = s.ctrHi := rfl
@[simp] theorem State.respond_trunc (s : State) (r : BusResponse) : (s.respond r).trunc = s.trunc := rfl
@[simp] theorem State.respond_codeval (s : State) (r : BusResponse) : (s.respond r).codeval = s.codeval := rfl
@[simp] theorem State.respond_candlen (s : State) (r : BusResponse) : (s.respond r).candlen = s.candlen := rfl
@[simp] theorem State.respond_mem (s : State) (r : BusResponse) : (s.respond r).mem = s.mem := rfl
@[simp] theorem State.respond_latch (s : State) (r : BusResponse) : (s.respond r).latch = s.latch := rfl
@[simp] theorem State.respond_script (s : State) (r : BusResponse) : (s.respond r).script = s.script := rfl
@[simp] theorem State.respond_hpc (s : State) (r : BusResponse) : (s.respond r).hpc = s.hpc := rfl
@[simp] theorem State.respond_resp (s : State) (r : BusResponse) : (s.respond r).resp = r := rfl
@[simp] theorem State.respond_draws (s : State) (r : BusResponse) : (s.respond r).draws = s.draws := rfl

@[simp] theorem State.respondDrawn_cfg (s : State) (r : BusResponse) : (s.respondDrawn r).cfg = s.cfg := rfl
@[simp] theorem State.respondDrawn_ctrlIe (s : State) (r : BusResponse) :
    (s.respondDrawn r).ctrlIe = s.ctrlIe := rfl
@[simp] theorem State.respondDrawn_status (s : State) (r : BusResponse) :
    (s.respondDrawn r).status = s.status := rfl
@[simp] theorem State.respondDrawn_ilen (s : State) (r : BusResponse) : (s.respondDrawn r).ilen = s.ilen := rfl
@[simp] theorem State.respondDrawn_olen (s : State) (r : BusResponse) : (s.respondDrawn r).olen = s.olen := rfl
@[simp] theorem State.respondDrawn_errpos (s : State) (r : BusResponse) :
    (s.respondDrawn r).errpos = s.errpos := rfl
@[simp] theorem State.respondDrawn_ctrLo (s : State) (r : BusResponse) : (s.respondDrawn r).ctrLo = s.ctrLo := rfl
@[simp] theorem State.respondDrawn_ctrHi (s : State) (r : BusResponse) : (s.respondDrawn r).ctrHi = s.ctrHi := rfl
@[simp] theorem State.respondDrawn_trunc (s : State) (r : BusResponse) : (s.respondDrawn r).trunc = s.trunc := rfl
@[simp] theorem State.respondDrawn_codeval (s : State) (r : BusResponse) :
    (s.respondDrawn r).codeval = s.codeval := rfl
@[simp] theorem State.respondDrawn_candlen (s : State) (r : BusResponse) :
    (s.respondDrawn r).candlen = s.candlen := rfl
@[simp] theorem State.respondDrawn_mem (s : State) (r : BusResponse) : (s.respondDrawn r).mem = s.mem := rfl
@[simp] theorem State.respondDrawn_latch (s : State) (r : BusResponse) : (s.respondDrawn r).latch = s.latch := rfl
@[simp] theorem State.respondDrawn_script (s : State) (r : BusResponse) :
    (s.respondDrawn r).script = s.script := rfl
@[simp] theorem State.respondDrawn_hpc (s : State) (r : BusResponse) : (s.respondDrawn r).hpc = s.hpc := rfl
@[simp] theorem State.respondDrawn_resp (s : State) (r : BusResponse) : (s.respondDrawn r).resp = r := rfl
@[simp] theorem State.respondDrawn_draws (s : State) (r : BusResponse) :
    (s.respondDrawn r).draws = s.draws + 1 := rfl

@[simp] theorem State.drop_cfg (s : State) : s.drop.cfg = s.cfg := rfl
@[simp] theorem State.drop_ctrlIe (s : State) : s.drop.ctrlIe = s.ctrlIe := rfl
@[simp] theorem State.drop_status (s : State) : s.drop.status = s.status.hazard := rfl
@[simp] theorem State.drop_ilen (s : State) : s.drop.ilen = s.ilen := rfl
@[simp] theorem State.drop_olen (s : State) : s.drop.olen = s.olen := rfl
@[simp] theorem State.drop_errpos (s : State) : s.drop.errpos = s.errpos := rfl
@[simp] theorem State.drop_ctrLo (s : State) : s.drop.ctrLo = s.ctrLo := rfl
@[simp] theorem State.drop_ctrHi (s : State) : s.drop.ctrHi = s.ctrHi := rfl
@[simp] theorem State.drop_trunc (s : State) : s.drop.trunc = s.trunc := rfl
@[simp] theorem State.drop_codeval (s : State) : s.drop.codeval = s.codeval := rfl
@[simp] theorem State.drop_candlen (s : State) : s.drop.candlen = s.candlen := rfl
@[simp] theorem State.drop_mem (s : State) : s.drop.mem = s.mem := rfl
@[simp] theorem State.drop_latch (s : State) : s.drop.latch = s.latch := rfl
@[simp] theorem State.drop_script (s : State) : s.drop.script = s.script := rfl
@[simp] theorem State.drop_hpc (s : State) : s.drop.hpc = s.hpc := rfl
@[simp] theorem State.drop_resp (s : State) : s.drop.resp = s.resp := rfl
@[simp] theorem State.drop_draws (s : State) : s.drop.draws = s.draws := rfl

@[simp] theorem State.tick_cfg (s : State) : s.tick.cfg = s.cfg := rfl
@[simp] theorem State.tick_ctrlIe (s : State) : s.tick.ctrlIe = s.ctrlIe := rfl
@[simp] theorem State.tick_status (s : State) : s.tick.status = s.status := rfl
@[simp] theorem State.tick_ilen (s : State) : s.tick.ilen = s.ilen := rfl
@[simp] theorem State.tick_olen (s : State) : s.tick.olen = s.olen := rfl
@[simp] theorem State.tick_errpos (s : State) : s.tick.errpos = s.errpos := rfl
@[simp] theorem State.tick_ctrLo (s : State) : s.tick.ctrLo = s.ctrLo := rfl
@[simp] theorem State.tick_ctrHi (s : State) : s.tick.ctrHi = s.ctrHi := rfl
@[simp] theorem State.tick_trunc (s : State) : s.tick.trunc = s.trunc := rfl
@[simp] theorem State.tick_codeval (s : State) : s.tick.codeval = s.codeval := rfl
@[simp] theorem State.tick_candlen (s : State) : s.tick.candlen = s.candlen := rfl
@[simp] theorem State.tick_mem (s : State) : s.tick.mem = s.mem := rfl
@[simp] theorem State.tick_latch (s : State) :
    s.tick.latch = s.latch.map fun l => { l with wait := l.wait - 1 } := rfl
@[simp] theorem State.tick_script (s : State) : s.tick.script = s.script := rfl
@[simp] theorem State.tick_hpc (s : State) : s.tick.hpc = s.hpc := rfl
@[simp] theorem State.tick_resp (s : State) : s.tick.resp = s.resp := rfl
@[simp] theorem State.tick_draws (s : State) : s.tick.draws = s.draws := rfl

@[simp] theorem State.goto_cfg (s : State) (n : Nat) : (s.goto n).cfg = s.cfg := rfl
@[simp] theorem State.goto_ctrlIe (s : State) (n : Nat) : (s.goto n).ctrlIe = s.ctrlIe := rfl
@[simp] theorem State.goto_status (s : State) (n : Nat) : (s.goto n).status = s.status := rfl
@[simp] theorem State.goto_ilen (s : State) (n : Nat) : (s.goto n).ilen = s.ilen := rfl
@[simp] theorem State.goto_olen (s : State) (n : Nat) : (s.goto n).olen = s.olen := rfl
@[simp] theorem State.goto_errpos (s : State) (n : Nat) : (s.goto n).errpos = s.errpos := rfl
@[simp] theorem State.goto_ctrLo (s : State) (n : Nat) : (s.goto n).ctrLo = s.ctrLo := rfl
@[simp] theorem State.goto_ctrHi (s : State) (n : Nat) : (s.goto n).ctrHi = s.ctrHi := rfl
@[simp] theorem State.goto_trunc (s : State) (n : Nat) : (s.goto n).trunc = s.trunc := rfl
@[simp] theorem State.goto_codeval (s : State) (n : Nat) : (s.goto n).codeval = s.codeval := rfl
@[simp] theorem State.goto_candlen (s : State) (n : Nat) : (s.goto n).candlen = s.candlen := rfl
@[simp] theorem State.goto_mem (s : State) (n : Nat) : (s.goto n).mem = s.mem := rfl
@[simp] theorem State.goto_latch (s : State) (n : Nat) : (s.goto n).latch = s.latch := rfl
@[simp] theorem State.goto_script (s : State) (n : Nat) : (s.goto n).script = s.script := rfl
@[simp] theorem State.goto_hpc (s : State) (n : Nat) : (s.goto n).hpc = n := rfl
@[simp] theorem State.goto_resp (s : State) (n : Nat) : (s.goto n).resp = s.resp := rfl
@[simp] theorem State.goto_draws (s : State) (n : Nat) : (s.goto n).draws = s.draws := rfl

@[simp] theorem State.applyReset_cfg (s : State) : s.applyReset.cfg = s.cfg := rfl
@[simp] theorem State.applyReset_ctrlIe (s : State) : s.applyReset.ctrlIe = false := rfl
@[simp] theorem State.applyReset_status (s : State) : s.applyReset.status = Status.reset := rfl
@[simp] theorem State.applyReset_ilen (s : State) : s.applyReset.ilen = 0 := rfl
@[simp] theorem State.applyReset_olen (s : State) : s.applyReset.olen = 0 := rfl
@[simp] theorem State.applyReset_errpos (s : State) : s.applyReset.errpos = 0 := rfl
@[simp] theorem State.applyReset_ctrLo (s : State) : s.applyReset.ctrLo = 0 := rfl
@[simp] theorem State.applyReset_ctrHi (s : State) : s.applyReset.ctrHi = 0 := rfl
@[simp] theorem State.applyReset_trunc (s : State) : s.applyReset.trunc = 0 := rfl
@[simp] theorem State.applyReset_codeval (s : State) : s.applyReset.codeval = 0 := rfl
@[simp] theorem State.applyReset_candlen (s : State) : s.applyReset.candlen = 0 := rfl
@[simp] theorem State.applyReset_mem (s : State) : s.applyReset.mem = [] := rfl
@[simp] theorem State.applyReset_latch (s : State) : s.applyReset.latch = none := rfl
@[simp] theorem State.applyReset_script (s : State) : s.applyReset.script = s.script := rfl
@[simp] theorem State.applyReset_hpc (s : State) : s.applyReset.hpc = s.hpc := rfl
@[simp] theorem State.applyReset_resp (s : State) : s.applyReset.resp = .none := rfl
@[simp] theorem State.applyReset_draws (s : State) : s.applyReset.draws = s.draws := rfl

/-! ### The derived views of the state -/

@[simp] theorem State.complete_eq_finish (s : State) (n : Nat) : s.complete n = s.finish n false false := rfl
@[simp] theorem State.busy_of_none {s : State} (h : s.latch = none) : s.busy = false := by simp [State.busy, h]
@[simp] theorem State.busy_of_some {s : State} {l : Latch} (h : s.latch = some l) : s.busy = true := by
  simp [State.busy, h]
@[simp] theorem State.tick_busy (s : State) : s.tick.busy = s.busy := by
  cases h : s.latch <;> simp [State.busy, h]
theorem State.tick_of_idle {s : State} (h : s.latch = none) : s.tick = s := by
  cases s; simp_all [State.tick]

/-! ### The status register -/

@[simp] theorem Status.accepted_haz (t : Status) : t.accepted.haz = t.haz := rfl
@[simp] theorem Status.completed_haz (t : Status) (m l : Bool) : (t.completed m l).haz = t.haz := rfl
@[simp] theorem Status.failed_haz (t : Status) (c : ErrCode) : (t.failed c).haz = t.haz := rfl
@[simp] theorem Status.hazard_haz (t : Status) : t.hazard.haz = true := rfl
@[simp] theorem Status.completed_done (t : Status) (m l : Bool) : (t.completed m l).done = true := rfl
@[simp] theorem Status.failed_done (t : Status) (c : ErrCode) : (t.failed c).done = true := rfl
@[simp] theorem Status.accepted_done (t : Status) : t.accepted.done = false := rfl

end Sys2Proof.Machine
end

