-- ==== Sys2Proof/Laws/Bus.lean ====
section
/-! SUPPORT. What a host access, a host slot and a step can do. -/

namespace Sys2Proof.Machine

/-! ### The address map -/

/-- A byte target is the byte at the offset, and a byte of a buffer. -/
theorem byteTarget_byte {p : Config.Params} {o a : Nat} {b : Buffer} (h : byteTarget p o = some (.byte b a)) :
    a = o ∧ isBufferByte p o := by
  simp only [byteTarget] at h
  split at h
  · cases h; exact ⟨rfl, by omega⟩
  split at h
  · cases h; exact ⟨rfl, by omega⟩
  split at h
  · cases h
  split at h
  · cases h; exact ⟨rfl, by omega⟩
  split at h
  · cases h; exact ⟨rfl, by omega⟩
  · cases h

/-- An admitted access to a buffer byte reaches a byte that exists. -/
theorem accessTarget_byte {p : Config.Params} {off : Offset} {w a : Nat} {b : Buffer}
    (h : accessTarget p off w = some (.byte b a)) : isBufferByte p a := by
  simp only [accessTarget] at h
  split at h
  · split at h <;> cases h
  · split at h
    · obtain ⟨rfl, h2⟩ := byteTarget_byte h; exact h2
    · cases h

/-- The accesses that reach nothing are those R64 refuses. -/
theorem accessTarget_none_iff (p : Config.Params) (off : Offset) (w : Nat) : accessTarget p off w = none ↔ ¬ Admitted p off w := by
  simp only [accessTarget, byteTarget, Admitted]
  constructor
  · intro h
    split at h
    · split at h
      · cases h
      · omega
    · split at h
      · repeat' split at h
        all_goals first
          | omega
          | cases h
      · omega
  · intro h
    split
    · split
      · omega
      · rfl
    · split
      · repeat' split
        all_goals first
          | rfl
          | omega
      · rfl

/-- The register at an aligned offset, by its offset (the table of spec/10_state.md section 2). -/
theorem regAt_eq_iff {o : Nat} (h4 : o % 4 = 0) :
    (regAt o = .id ↔ o = 0x000) ∧ (regAt o = .ctrl ↔ o = 0x004) ∧ (regAt o = .cmd ↔ o = 0x008) ∧
      (regAt o = .status ↔ o = 0x00C) ∧ (regAt o = .ilen ↔ o = 0x010) ∧ (regAt o = .olen ↔ o = 0x014) ∧
      (regAt o = .errpos ↔ o = 0x018) ∧ (regAt o = .ctrLo ↔ o = 0x01C) ∧ (regAt o = .ctrHi ↔ o = 0x020) ∧
      (regAt o = .trunc ↔ o = 0x024) ∧ (regAt o = .codeval ↔ o = 0x028) ∧ (regAt o = .candlen ↔ o = 0x02C) ∧
      (regAt o = .reserved ↔ 0x030 ≤ o) := by
  obtain ⟨k, rfl⟩ : ∃ k, o = 4 * k := ⟨o / 4, by omega⟩
  have e : 4 * k / 4 = k := by omega
  simp only [regAt, e]
  by_cases hk : k < 12
  · interval_cases k <;> decide
  · have hr : ∀ n, n < 12 → k ≠ n := fun n hn => by omega
    split
    all_goals first
      | exact absurd rfl (hr _ (by decide))
      | (simp only [reduceCtorEq, false_iff, true_iff]; omega)

/-- An admitted access that reaches a register is a 32-bit access at an aligned offset below 0x100. -/
theorem accessTarget_reg {p : Config.Params} {off : Offset} {w : Nat} {r : Reg} (h : accessTarget p off w = some (.reg r)) :
    w = 4 ∧ off.toNat % 4 = 0 ∧ off.toNat < 0x100 ∧ regAt off.toNat = r := by
  simp only [accessTarget] at h
  split at h
  · rename_i hlt
    split at h
    · rename_i hw
      cases h
      exact ⟨hw.1, hw.2, hlt, rfl⟩
    · cases h
  · split at h
    · simp only [byteTarget] at h
      repeat' split at h
      all_goals cases h
    · cases h

/-! ### Reads -/

/-- Bit [0] of `STATUS` is `BUSY` (R25). -/
@[simp] theorem Status.word_bit0 (t : Status) (b : Bool) : (t.word b).getLsbD 0 = b := by
  obtain ⟨done, err, haz, matched, lenmis, code⟩ := t
  cases b <;> cases done <;> cases err <;> cases haz <;> cases matched <;> cases lenmis <;> cases code <;> rfl

/-- A read changes nothing but the answer and, when it draws, the count of draws (R69). -/
theorem State.busRead_shape (s : State) (t : Target) :
    ∃ r d, s.busRead t = { s with resp := r, draws := d } ∧ (d = s.draws ∨ d = s.draws + 1) := by
  cases t with
  | reg r =>
    simp only [State.busRead, State.readReg]
    split
    · exact ⟨_, _, rfl, .inr rfl⟩
    · exact ⟨_, _, rfl, .inl rfl⟩
  | byte b a =>
    simp only [State.busRead, State.readByte]
    split
    · exact ⟨_, _, rfl, .inr rfl⟩
    · split
      · exact ⟨_, _, rfl, .inl rfl⟩
      · exact ⟨_, _, rfl, .inr rfl⟩
  | reservedByte => exact ⟨_, _, rfl, .inl rfl⟩

/-! ### Writes -/

theorem State.inputWrite_busy {s e : State} (h : s.busy = true) : s.inputWrite e = s.drop := by
  simp [State.inputWrite, h]

theorem State.inputWrite_idle {s e : State} (h : s.busy = false) : s.inputWrite e = e := by
  simp [State.inputWrite, h]

/-- While busy a write changes only `CTRL.IE`, `STATUS` by its own rule, or `HAZ` (R23, R25, R191). -/
theorem State.busWrite_busy {s : State} (hb : s.busy = true) (v : Word) (t : Target) :
    ∃ st ie, s.busWrite v t = { s with status := st, ctrlIe := ie, resp := .ack } ∧
      (st = s.status ∨ st = s.status.hazard ∨ st = s.status.written v) := by
  cases t with
  | reg r =>
    cases r
    all_goals simp only [State.busWrite, State.writeReg, State.inputWrite_busy hb, State.drop, State.respond]
    case status => exact ⟨_, _, rfl, .inr (.inr rfl)⟩
    case ctrl => exact ⟨s.status, _, rfl, .inl rfl⟩
    case id | olen | errpos | trunc | codeval | reserved => exact ⟨s.status, s.ctrlIe, rfl, .inl rfl⟩
    all_goals exact ⟨_, s.ctrlIe, rfl, .inr (.inl rfl)⟩
  | byte b a =>
    cases b
    all_goals simp only [State.busWrite, State.writeByte, State.inputWrite_busy hb, State.drop, State.respond]
    case obuf => exact ⟨s.status, s.ctrlIe, rfl, .inl rfl⟩
    all_goals exact ⟨_, s.ctrlIe, rfl, .inr (.inl rfl)⟩
  | reservedByte => exact ⟨s.status, s.ctrlIe, rfl, .inl rfl⟩

/-- While idle a write is an acceptance, a write of a buffer byte, a write of input registers or `CTRL`, or
a write of `STATUS`, and always leaves the results alone. -/
theorem State.busWrite_idle {s : State} (hb : s.busy = false) (v : Word) (t : Target) :
    (s.busWrite v t = (s.accept v).respond .ack) ∨
    (∃ b a x, t = .byte b a ∧ s.busWrite v t = { s with mem := s.mem.write a x, resp := .ack }) ∨
    (∃ st ie il lo hi cl, s.busWrite v t =
      { s with status := st, ctrlIe := ie, ilen := il, ctrLo := lo, ctrHi := hi, candlen := cl, resp := .ack } ∧
      (st = s.status ∨ st = s.status.written v)) := by
  cases t with
  | reg r =>
    cases r
    all_goals simp only [State.busWrite, State.writeReg, State.inputWrite_idle hb]
    case cmd => exact .inl trivial
    case status =>
      exact .inr (.inr ⟨_, s.ctrlIe, s.ilen, s.ctrLo, s.ctrHi, s.candlen, rfl, .inr rfl⟩)
    case ctrl => exact .inr (.inr ⟨s.status, _, s.ilen, s.ctrLo, s.ctrHi, s.candlen, rfl, .inl rfl⟩)
    case ilen => exact .inr (.inr ⟨s.status, s.ctrlIe, _, s.ctrLo, s.ctrHi, s.candlen, rfl, .inl rfl⟩)
    case ctrLo => exact .inr (.inr ⟨s.status, s.ctrlIe, s.ilen, _, s.ctrHi, s.candlen, rfl, .inl rfl⟩)
    case ctrHi => exact .inr (.inr ⟨s.status, s.ctrlIe, s.ilen, s.ctrLo, _, s.candlen, rfl, .inl rfl⟩)
    case candlen => exact .inr (.inr ⟨s.status, s.ctrlIe, s.ilen, s.ctrLo, s.ctrHi, _, rfl, .inl rfl⟩)
    all_goals exact .inr (.inr ⟨s.status, s.ctrlIe, s.ilen, s.ctrLo, s.ctrHi, s.candlen, rfl, .inl rfl⟩)
  | byte b a =>
    cases b
    all_goals simp only [State.busWrite, State.writeByte, State.inputWrite_idle hb]
    case obuf =>
      exact .inr (.inr ⟨s.status, s.ctrlIe, s.ilen, s.ctrLo, s.ctrHi, s.candlen, rfl, .inl rfl⟩)
    all_goals exact .inr (.inl ⟨_, _, _, rfl, rfl⟩)
  | reservedByte =>
    exact .inr (.inr ⟨s.status, s.ctrlIe, s.ilen, s.ctrLo, s.ctrHi, s.candlen, rfl, .inl rfl⟩)

/-! ### Host slots and steps -/

/-- What a host slot can do when it answers a next state. -/
theorem State.hostStep_next {s t : State} (h : s.hostStep = .next t) :
    (s.nextOp = none ∧ t = s.tick) ∨
    (s.nextOp = some .idle ∧ t = s.tick.goto (s.hpc + 1)) ∨
    (∃ off w g, s.nextOp = some (.read off w) ∧ accessTarget s.cfg off w = some g ∧
      t = (s.tick.busRead g).goto (s.hpc + 1)) ∨
    (∃ off w v g, s.nextOp = some (.write off w v) ∧ accessTarget s.cfg off w = some g ∧
      t = (s.tick.busWrite v g).goto (s.hpc + 1)) ∨
    (∃ l off b g, s.nextOp = some (.bit1 l off b) ∧ accessTarget s.cfg off 4 = some g ∧
      t = (s.tick.busRead g).goto (if (s.tick.busRead g).resp.bitSet b then l else s.hpc + 1)) ∨
    (s.nextOp = some .reset ∧ t = s.applyReset.goto (s.hpc + 1)) := by
  simp only [State.hostStep] at h
  split at h
  · rename_i ho; cases h; exact .inl ⟨ho, rfl⟩
  · rename_i ho; cases h; exact .inr (.inl ⟨ho, rfl⟩)
  · rename_i off w ho
    split at h
    · cases h
    · rename_i g hg; cases h; exact .inr (.inr (.inl ⟨off, w, g, ho, hg, rfl⟩))
  · rename_i off w v ho
    split at h
    · cases h
    · rename_i g hg; cases h; exact .inr (.inr (.inr (.inl ⟨off, w, v, g, ho, hg, rfl⟩)))
  · rename_i l off b ho
    split at h
    · cases h
    · rename_i g hg; cases h; exact .inr (.inr (.inr (.inr (.inl ⟨l, off, b, g, ho, hg, rfl⟩))))
  · rename_i ho; cases h; exact .inr (.inr (.inr (.inr (.inr ⟨ho, rfl⟩))))

/-- When a completion is the next event. -/
theorem State.completing_some_iff (s : State) (w : Word) :
    s.completing = some w ↔ s.latch = some { word := w, wait := 0 } ∧ s.nextOp ≠ some .reset := by
  simp only [State.completing]
  cases hl : s.latch with
  | none => simp
  | some l =>
    obtain ⟨x, k⟩ := l
    by_cases hk : k = 0 <;> by_cases hr : s.nextOp = some .reset <;> simp [hk, hr]

/-- A step is a completion or a host slot. -/
theorem step_cases (s : State) :
    (∃ w, s.completing = some w ∧ step s = exec (decode w) s) ∨
      (s.completing = none ∧ step s = s.hostStep) := by
  cases h : s.completing with
  | some w => exact .inl ⟨w, rfl, by simp only [step, h]⟩
  | none => exact .inr ⟨rfl, by simp only [step, h]⟩

/-! ### Runs -/

/-- A run goes on from the state a step answers. -/
theorem core_run_next {s t : State} {k : Nat} (h : step s = .next t) :
    Sys2Proof.core.run (k + 1) s = Sys2Proof.core.run k t := by
  have hc : Sys2Proof.core.step s = .next t := h
  simp only [Host.Core.run, hc]

/-- A run of one step is that step. -/
theorem core_run_one (s : State) : Sys2Proof.core.run 1 s = step s := by
  have hc : Sys2Proof.core.step s = step s := rfl
  simp only [Host.Core.run]
  rw [← hc]
  cases Sys2Proof.core.step s <;> rfl

end Sys2Proof.Machine
end

