-- ==== Sys2Proof/Laws/Exec.lean ====
section
/-! SUPPORT. One lemma per meaning that says everything it can do when it answers a next state, and the
small facts about the operations the meanings share. -/

namespace Sys2Proof.Machine

/-! ### Lengths of what is written -/

@[simp] theorem counterBytes_length (c : BitVec 64) : (counterBytes c).length = 8 := by simp [counterBytes]

@[simp] theorem codeDigits_length (n : Nat) : (codeDigits n).length = 6 := by simp [codeDigits]

theorem codeOf_lt (p : BitVec 31) : codeOf p < 1000000 := by
  simp only [codeOf]; omega

/-- `CODEVAL` holds the whole code: 999 999 is below `2^20` (R38). -/
theorem codeval_toNat (p : BitVec 31) : (BitVec.ofNat 20 (codeOf p)).toNat = codeOf p := by
  have := codeOf_lt p
  simp only [BitVec.toNat_ofNat]
  exact Nat.mod_eq_of_lt (by omega)

theorem truncOffset_le (d : List Byte) : truncOffset d ≤ 15 := by
  simp only [truncOffset, BitVec.toNat_and]
  exact Nat.and_le_right

/-! ### Whole states -/

/-- The body of `HOTPTRUNC` as one update. -/
theorem State.truncate_eq (s : State) (d : List Byte) :
    s.truncate d = { s with
      mem := (s.mem.writeBytes obufBase (codeDigits (codeOf (truncValue d)))).writeBytes expBase
        (codeDigits (codeOf (truncValue d)))
      trunc := truncValue d
      codeval := BitVec.ofNat 20 (codeOf (truncValue d)) } := by
  simp only [State.truncate, State.writeAt]

/-- A completion as one update. -/
theorem State.finish_eq (s : State) (n : Nat) (m l : Bool) :
    s.finish n m l = { s with
      olen := BitVec.ofNat 16 n
      errpos := 0
      status := Status.success s.status.haz m l
      latch := none } := rfl

/-- An error completion as one update. -/
theorem State.blockError_eq (s : State) (c : ErrCode) (p : Nat) :
    s.blockError c p = { s with
      olen := 0
      errpos := BitVec.ofNat 16 p
      status := Status.failure s.status.haz c
      latch := none } := rfl

/-- `ZEROIZE` as one update. -/
theorem execZeroize_eq (s : State) :
    execZeroize s = .next { s with
      ilen := 0, ctrLo := 0, ctrHi := 0, candlen := 0, trunc := 0, codeval := 0, mem := s.zeroBuffers.mem
      olen := 0, errpos := 0, status := Status.success s.status.haz false false, latch := none } := by
  simp only [execZeroize, State.complete, State.finish, State.zeroRegisters, State.zeroBuffers_cfg,
    State.zeroBuffers_ctrlIe, State.zeroBuffers_status, State.zeroBuffers_script, State.zeroBuffers_hpc,
    State.zeroBuffers_resp, State.zeroBuffers_draws]
  rfl

/-! ### Inversions -/

/-- What `B32ENC` can answer. -/
theorem execB32enc_next {s t : State} (h : execB32enc s = .next t) :
    (s.cfg.ibufSize < s.inputLen ∧ t = s.blockError .badLength 0) ∨
      (s.inputLen ≤ s.cfg.ibufSize ∧ ∃ bs, s.inputBytes = .ok bs ∧ bs.length = s.inputLen ∧
        t = (s.writeAt obufBase (base32Encode bs)).complete (encodedLen bs.length)) := by
  simp only [execB32enc] at h
  split at h
  · rename_i hl
    cases h
    exact .inl ⟨hl, rfl⟩
  · rename_i hl
    obtain ⟨bs, hb, h⟩ := onBytes_next h
    cases h
    exact .inr ⟨by omega, bs, hb, ((s.mem.readBytes_ok_iff _ _ _).mp hb).1, rfl⟩

/-- What `B32DEC` can answer. -/
theorem execB32dec_next {s t : State} (h : execB32dec s = .next t) :
    (s.cfg.ibufSize < s.inputLen ∧ t = s.blockError .badLength 0) ∨
      (s.inputLen ≤ s.cfg.ibufSize ∧ ∃ text, s.inputBytes = .ok text ∧ text.length = s.inputLen ∧
        t = s.decodeText text) := by
  simp only [execB32dec] at h
  split at h
  · rename_i hl
    cases h
    exact .inl ⟨hl, rfl⟩
  · rename_i hl
    obtain ⟨bs, hb, h⟩ := onBytes_next h
    cases h
    exact .inr ⟨by omega, bs, hb, ((s.mem.readBytes_ok_iff _ _ _).mp hb).1, rfl⟩

/-- How a decode of a text ends. -/
theorem State.decodeText_cases (s : State) (text : List Byte) :
    (∃ i, firstInvalid (kept text) = some i ∧ i < text.length ∧
      s.decodeText text =
        (s.drawBytes obufBase (decodedLen (kept text).length)).blockError .invalidCharacter i) ∨
    (firstInvalid (kept text) = none ∧
      s.decodeText text =
        (s.writeAt obufBase (base32Decode (symbolValues (kept text)))).complete
          (decodedLen (kept text).length)) := by
  cases h : firstInvalid (kept text) with
  | some i => exact .inl ⟨i, rfl, firstInvalid_lt h, by simp only [State.decodeText, h]⟩
  | none => exact .inr ⟨rfl, by simp only [State.decodeText, h]⟩

/-- What `HOTPTRUNC` can answer. -/
theorem execHotptrunc_next {s t : State} (h : execHotptrunc s = .next t) :
    (s.inputLen ≠ 20 ∧ t = s.blockError .badLength 0) ∨
      (s.inputLen = 20 ∧ ∃ d, s.digest = .ok d ∧ d.length = 20 ∧ t = (s.truncate d).complete 6) := by
  simp only [execHotptrunc] at h
  split at h
  · rename_i hl
    obtain ⟨d, hd, h⟩ := onBytes_next h
    cases h
    exact .inr ⟨hl, d, hd, ((s.mem.readBytes_ok_iff _ _ _).mp hd).1, rfl⟩
  · rename_i hl
    cases h
    exact .inl ⟨hl, rfl⟩

/-- What a compare can answer. -/
theorem State.compare_next {s t : State} {n : Nat} (h : s.compare n = .next t) :
    (s.candlen ≠ 6 ∧ t = s.finish n false true) ∨
      (s.candlen = 6 ∧ ∃ e c, s.expectedCode = .ok e ∧ s.candidateCode = .ok c ∧
        t = s.finish n (codesEqual e c) false) := by
  by_cases hl : s.candlen = 6
  · have hb : s.lenOk = true := by simp [State.lenOk, hl]
    rw [State.compare, if_pos hb] at h
    obtain ⟨e, he, h⟩ := onBytes_next h
    obtain ⟨c, hc, h⟩ := onBytes_next h
    cases h
    exact .inr ⟨hl, e, c, he, hc, rfl⟩
  · have hb : ¬ s.lenOk = true := by simpa [State.lenOk] using hl
    rw [State.compare, if_neg hb] at h
    cases h
    exact .inl ⟨hl, rfl⟩

/-- What `TRUNCCMP` can answer. -/
theorem execTrunccmp_next {s t : State} (h : execTrunccmp s = .next t) :
    (s.inputLen ≠ 20 ∧ t = s.blockError .badLength 0) ∨
      (s.inputLen = 20 ∧ ∃ d, s.digest = .ok d ∧ d.length = 20 ∧ (s.truncate d).compare 6 = .next t) := by
  simp only [execTrunccmp] at h
  split at h
  · rename_i hl
    obtain ⟨d, hd, h⟩ := onBytes_next h
    exact .inr ⟨hl, d, hd, ((s.mem.readBytes_ok_iff _ _ _).mp hd).1, h⟩
  · rename_i hl
    cases h
    exact .inl ⟨hl, rfl⟩

/-! ### The comparator -/

/-- `acc = 0` exactly when every pair of bytes is equal (R151). -/
theorem codesEqual_iff {e c : List Byte} (h : e.length = c.length) : codesEqual e c = true ↔ e = c := by
  simp only [codesEqual, beq_iff_eq]
  induction e generalizing c with
  | nil =>
    cases c with
    | nil => simp [diffAcc]
    | cons _ _ => simp at h
  | cons x xs ih =>
    cases c with
    | nil => simp at h
    | cons y ys =>
      have hl : xs.length = ys.length := by simpa using h
      have hor : ∀ a b : Byte, a ||| b = 0 ↔ a = 0 ∧ b = 0 := fun a b => BitVec.or_eq_zero_iff
      have hx : ∀ a b : Byte, a ^^^ b = 0 ↔ a = b := fun a b => BitVec.xor_eq_zero_iff
      rw [diffAcc, hor, hx, ih hl, List.cons.injEq]

end Sys2Proof.Machine
end

