-- ==== Sys2Proof/Laws/PerInstr.lean ====
section
/-! SUPPORT. Statements about every instruction as syntax, one lemma per constructor. -/

namespace Sys2Proof.Laws

/-- The word of a well-formed instruction has a set reserved bit or an `OPC` of 0x08 or more exactly when
the instruction is the illegal command (spec/30_encoding.md R84 to R86). -/
def ReservedWord.Statement (i : Instr) : Prop :=
  i.wf = true → ((rsvOf (encode i) ≠ 0 ∨ 8 ≤ (opcOf (encode i)).toNat) ↔ ∃ w, i = .illegal w)

theorem ReservedWord.nop : ReservedWord.Statement .nop := by
  intro _; simp [encode, commandWord, rsvOf, opcOf]
theorem ReservedWord.b32enc : ReservedWord.Statement .b32enc := by
  intro _; simp [encode, commandWord, rsvOf, opcOf]
theorem ReservedWord.b32dec : ReservedWord.Statement .b32dec := by
  intro _; simp [encode, commandWord, rsvOf, opcOf]
theorem ReservedWord.ctrser : ReservedWord.Statement .ctrser := by
  intro _; simp [encode, commandWord, rsvOf, opcOf]
theorem ReservedWord.hotptrunc : ReservedWord.Statement .hotptrunc := by
  intro _; simp [encode, commandWord, rsvOf, opcOf]
theorem ReservedWord.ctcmp : ReservedWord.Statement .ctcmp := by
  intro _; simp [encode, commandWord, rsvOf, opcOf]
theorem ReservedWord.trunccmp : ReservedWord.Statement .trunccmp := by
  intro _; simp [encode, commandWord, rsvOf, opcOf]
theorem ReservedWord.zeroize : ReservedWord.Statement .zeroize := by
  intro _; simp [encode, commandWord, rsvOf, opcOf]

theorem ReservedWord.illegal (w : Word) : ReservedWord.Statement (.illegal w) := by
  intro h
  have hw : 8 ≤ w.toNat := by simpa [Instr.wf] using h
  refine ⟨fun _ => ⟨w, rfl⟩, fun _ => ?_⟩
  simp only [encode]
  by_contra hc
  obtain ⟨h1, h2⟩ := not_or.mp hc
  have h1 : rsvOf w = 0 := not_not.mp h1
  have e1 : (rsvOf w).toNat = w.toNat / 256 := by
    simp [rsvOf, BitVec.extractLsb'_toNat, Nat.shiftRight_eq_div_pow]
    omega
  have e2 : (opcOf w).toNat = w.toNat % 256 := by simp [opcOf, BitVec.extractLsb'_toNat]
  rw [h1] at e1
  simp only [BitVec.toNat_zero, BitVec.ofNat_eq_ofNat] at e1
  omega

end Sys2Proof.Laws
end

