-- ==== Sys2Proof/Tests/Slice0.lean ====
section
/-! SUPPORT. The model's own tests.  Expected results are those of spec/95_test_vectors.md or of the rule a
comment names; each theorem `witness_…` shows a state and operands that meet the hypotheses of a statement. -/

namespace Sys2Proof.Tests

open Sys2Proof Sys2Proof.Machine

/-! ### Helpers -/

/-- A view of the next state, if there is one. -/
def after {α : Type} (o : Host.Outcome State Fault Refusal) (f : State → α) : Option α :=
  match o with
  | .next t => some (f t)
  | .fault _ => none
  | .refused _ => none

/-- The fault an outcome stops with, if it stops with one. -/
def faultOf (o : Host.Outcome State Fault Refusal) : Option Fault :=
  match o with
  | .next _ => none
  | .fault f => some f
  | .refused _ => none

/-- Reset, then a byte sequence in `IBUF` and its length in `ILEN`. -/
def loaded (bs : List Byte) : State := { State.reset.writeAt 0x1000 bs with ilen := BitVec.ofNat 16 bs.length }

/-- Reset, then an expected code, a candidate code and its length. -/
def codes (e c : List Byte) (n : BitVec 8) : State :=
  { (State.reset.writeAt 0x100 e).writeAt 0x108 c with candlen := n }

/-- Reset, with one host slot to come. -/
def slot (op : HostOp) : State := { State.reset with script := [op] }

/-- The same while a `NOP` runs that has one more cycle to go. -/
def busySlot (op : HostOp) : State := { slot op with latch := some { word := 0, wait := 1 } }

/-- The first `n` bytes of `OBUF`. -/
def out (n : Nat) (t : State) : List (Option Byte) := (List.range n).map t.obufAt

/-- The RFC 4226 Appendix D digest of counter 0 (95_test_vectors.md section 1.2). -/
def digest0 : List Byte :=
  [0xcc, 0x93, 0xcf, 0x18, 0x50, 0x8d, 0x94, 0x93, 0x4c, 0x64, 0xb6, 0x5d, 0x8b, 0xa7, 0x66, 0x7f, 0xb7, 0xcd,
    0xe4, 0xb0]

/-- The digest of counter 1. -/
def digest1 : List Byte :=
  [0x75, 0xa4, 0x8a, 0x19, 0xd4, 0xcb, 0xe1, 0x00, 0x64, 0x4e, 0x8a, 0xc1, 0x39, 0x7e, 0xea, 0x74, 0x7a, 0x2d,
    0x33, 0xab]

/-- "287082". -/
def code1 : List Byte := [0x32, 0x38, 0x37, 0x30, 0x38, 0x32]

theorem loaded_holds (bs : List Byte) : (loaded bs).Holds 0x1000 bs := fun _ h =>
  (Memory.read_writeBytes_at (m := []) (a := 0x1000) h).trans (List.getElem?_eq_getElem h)

/-! ### Well-formedness and decoding -/

/-- R86: a word of the opcode map is no illegal command. -/
theorem test_wf_refuses_command_word : (Instr.illegal 0x00000003).wf = false := by decide

theorem test_wf_refuses_last_command_word : (Instr.illegal 0x00000007).wf = false := by decide

theorem test_wf_accepts_illegal_word : (Instr.illegal 0x00000008).wf = true := by decide

/-- R85, the words of `opcode_table.json`. -/
theorem test_decode_nop : decode 0b00000000000000000000000000000000 = .nop := by decide

theorem test_decode_b32enc : decode 0b00000000000000000000000000000001 = .b32enc := by decide

theorem test_decode_b32dec : decode 0b00000000000000000000000000000010 = .b32dec := by decide

theorem test_decode_ctrser : decode 0b00000000000000000000000000000011 = .ctrser := by decide

theorem test_decode_hotptrunc : decode 0b00000000000000000000000000000100 = .hotptrunc := by decide

theorem test_decode_ctcmp : decode 0b00000000000000000000000000000101 = .ctcmp := by decide

theorem test_decode_trunccmp : decode 0b00000000000000000000000000000110 = .trunccmp := by decide

theorem test_decode_zeroize : decode 0b00000000000000000000000000000111 = .zeroize := by decide

/-- Section 2.7: the first reserved opcode. -/
theorem test_decode_reserved_opcode : decode 0x00000008 = .illegal 0x00000008 := by decide

/-- R172: reserved bit 8 set. -/
theorem test_decode_reserved_bit8 : decode 0x00000101 = .illegal 0x00000101 := by decide

/-- Section 2.7: reserved bit 31 set, with the opcode of `B32ENC`. -/
theorem test_decode_reserved_bit31 : decode 0x80000001 = .illegal 0x80000001 := by decide

theorem test_table_word : decodeTableWord 32 6 = some .trunccmp := by decide

/-! ### Commands -/

/-- Section 2.7: `NOP` ends with `STATUS` = 0x2 and `OLEN` = 0. -/
theorem test_nop : after (exec .nop State.reset) (fun t => (t.statusWord, t.olen)) = some (0x00000002, 0) := by
  decide

/-- Section 1.1: "foobar". -/
theorem test_b32enc_foobar :
    after (exec .b32enc (loaded [0x66, 0x6F, 0x6F, 0x62, 0x61, 0x72])) (fun t => (out 10 t, t.olen)) =
      some ([some 0x4D, some 0x5A, some 0x58, some 0x57, some 0x36, some 0x59, some 0x54, some 0x42, some 0x4F,
        some 0x49], 10) := by decide

/-- Section 2.1: FF FF gives "777Q", 4 pad bits. -/
theorem test_b32enc_pad :
    after (exec .b32enc (loaded [0xFF, 0xFF])) (fun t => (out 5 t, t.statusWord)) =
      some ([some 0x37, some 0x37, some 0x37, some 0x51, none], 0x00000002) := by decide

/-- Section 2.2, the rows "mY" and "M=Y" in one text: "m=Y" gives 66 with `OLEN` = 1. -/
theorem test_b32dec_case_and_padding :
    after (exec .b32dec (loaded [0x6D, 0x3D, 0x59])) (fun t => (out 2 t, t.olen, t.statusWord)) =
      some ([some 0x66, none], 1, 0x00000002) := by decide

/-- Section 2.2: "ma=1" ends with `STATUS` = 0x106, `ERRPOS` = 3, `OLEN` = 0. -/
theorem test_b32dec_invalid :
    after (exec .b32dec (loaded [0x6D, 0x61, 0x3D, 0x31])) (fun t => (t.statusWord, t.errpos, t.olen, t.draws)) =
      some (0x00000106, 3, 0, 1) := by decide

/-- Section 2.3. -/
theorem test_ctrser :
    after (exec .ctrser { State.reset with ctrHi := 0x01234567, ctrLo := 0x89ABCDEF })
        (fun t => (out 9 t, t.olen)) =
      some ([some 0x01, some 0x23, some 0x45, some 0x67, some 0x89, some 0xAB, some 0xCD, some 0xEF, none], 8) := by
  decide

/-- Section 1.2, counter 0: "755224". -/
theorem test_hotptrunc :
    after (exec .hotptrunc (loaded digest0)) (fun t => (out 6 t, t.trunc, t.codeval, t.olen)) =
      some ([some 0x37, some 0x35, some 0x35, some 0x32, some 0x32, some 0x34], 0x4C93CF18, 755224, 6) := by
  decide

/-- Section 2.4: FF x 20 reads at offset 15 and masks the top bit. -/
theorem test_hotptrunc_max :
    after (exec .hotptrunc (loaded (List.replicate 20 0xFF))) (fun t => (t.trunc, t.codeval, t.expAt 5)) =
      some (0x7FFFFFFF, 483647, some 0x37) := by decide

/-- Section 2.5: the last byte differs. -/
theorem test_ctcmp_last_byte :
    after (exec .ctcmp (codes code1 [0x32, 0x38, 0x37, 0x30, 0x38, 0x33] 6)) State.statusWord =
      some 0x00000002 := by decide

/-- Section 2.5: `CANDLEN` = 7 with equal bytes. -/
theorem test_ctcmp_length :
    after (exec .ctcmp (codes code1 code1 7)) State.statusWord = some 0x00000022 := by decide

/-- Section 2.6: a match. -/
theorem test_trunccmp_match :
    after (exec .trunccmp ({ loaded digest1 with candlen := 6 }.writeAt 0x108 code1))
      (fun t => (t.statusWord, t.trunc, t.olen)) = some (0x00000012, 1094287082, 6) := by decide

/-- Section 2.6: `ILEN` = 19 makes no compare. -/
theorem test_trunccmp_length :
    after (exec .trunccmp { loaded digest1 with ilen := 19, candlen := 6 })
      (fun t => (t.statusWord, t.trunc, t.obufAt 0)) = some (0x00000306, 0, none) := by decide

/-- R171, on the smallest buffers R6 allows. -/
theorem test_zeroize :
    after (exec .zeroize { loaded digest1 with cfg := { ibufSize := 20, obufSize := 32, blockId := 0 } })
      (fun t => (t.ibufAt 19, t.obufAt 31, t.obufAt 32, t.candAt 5, t.ilen)) =
      some (some 0, some 0, none, some 0, 0) := by decide

/-- R172: `STATUS` = 0x206. -/
theorem test_illegal :
    after (exec (.illegal 0x00000101) (loaded digest0)) (fun t => (t.statusWord, t.ilen)) =
      some (0x00000206, 20) := by decide

/-- K3: byte 1 of the two input bytes has no value. -/
theorem test_unwritten_read :
    faultOf (exec .b32enc { loaded [0x66] with ilen := 2 }) = some (.unwrittenRead 0x1001) := by decide

/-! ### Host slots (section 2.7) -/

/-- A word write to `IBUF` is a bus error. -/
theorem test_bus_word_to_buffer : faultOf (step (slot (.write 0x1000 4 0x41424344))) = some (.busError 0x1000) := by
  decide

/-- An unaligned word read is a bus error. -/
theorem test_bus_unaligned : faultOf (step (slot (.read 0x006 4))) = some (.busError 0x006) := by decide

/-- A byte read of an unmapped offset is a bus error. -/
theorem test_bus_unmapped : faultOf (step (slot (.read 0x110 1))) = some (.busError 0x110) := by decide

/-- A read of `ID`. -/
theorem test_bus_id : after (step (slot (.read 0x000 4))) State.resp = some (.word 0xB32C0700) := by decide

/-- A write to `ILEN` while busy is dropped and sets `HAZ`. -/
theorem test_bus_busy_write :
    after (step (busySlot (.write 0x010 4 5))) (fun t => (t.ilen, t.status.haz, t.busy)) =
      some (0, true, true) := by decide

/-- A write to `CTRL` while busy takes effect. -/
theorem test_bus_busy_ctrl : after (step (busySlot (.write 0x004 4 1))) State.ctrlIe = some true := by decide

/-- A host write to `OBUF` is ignored. -/
theorem test_bus_obuf_ignored : after (step (slot (.write 0x2000 1 0x55))) State.mem = some [] := by decide

/-- P1's first line: a byte write of `IBUF`. -/
theorem test_bus_byte_write : after (step (slot (.write 0x1000 1 0x66))) State.mem = some [(0x1000, 0x66)] := by
  decide

/-- R89: `RUN NOP` polls the line after its `CMD` write. -/
theorem test_script_run :
    assemble [.ldctr 0x0000000100000005, .run .nop] =
      some [.write 0x01C 4 5, .write 0x020 4 1, .write 0x008 4 0, .bit1 3 0x00C 0] := by decide

/-- R88: a branch to a label that stands behind it. -/
theorem test_script_label :
    assemble [.bit1 7 0x00C 4, .ack, .label 7, .ldi [0x66]] =
      some [.bit1 2 0x00C 4, .write 0x00C 4 0x0000000A, .write 0x1000 1 0x66, .write 0x010 4 1] := by decide

/-! ### Witnesses: the hypotheses of each statement are met together

A name `witness_<statement>_<what>` shows one clause of a statement with several. -/

/-- Whatever the slot, it is the host's next one and the engine is idle. -/
theorem slot_meets (op : HostOp) : (slot op).latch = none ∧ (slot op).nextOp = some op := ⟨rfl, rfl⟩

/-- Whatever the slot, it is the host's next one and a command runs that has one more cycle to go. -/
theorem busySlot_meets (op : HostOp) :
    (busySlot op).latch = some { word := 0, wait := 0 + 1 } ∧ (busySlot op).nextOp = some op := ⟨rfl, rfl⟩

/-- Reset with a command due. -/
def due (w : Word) : State := { State.reset with latch := some { word := w, wait := 0 } }

/-- Reset with every buffer byte 0. -/
def zeroed : State := State.reset.zeroBuffers

theorem zeroed_allWritten : zeroed.AllWritten := by
  have key : ∀ (m : Memory) (a n x : Nat), (a ≤ x ∧ x < a + n) ∨ (m.read x).isSome = true →
      ((m.writeBytes a (List.replicate n 0)).read x).isSome = true := by
    intro m a n x h
    rw [Memory.read_writeBytes, List.length_replicate]
    split
    · rename_i hx
      rw [List.getElem?_replicate, if_pos (by omega)]
      rfl
    · exact h.resolve_left (by assumption)
  simp only [State.AllWritten, zeroed, State.zeroBuffers_cfg, State.zeroBuffers_mem]
  rintro x (h | h | h | h)
  · exact key _ _ _ _ (.inl h)
  · exact key _ _ _ _ (.inr (key _ _ _ _ (.inl h)))
  · exact key _ _ _ _ (.inr (key _ _ _ _ (.inr (key _ _ _ _ (.inl h)))))
  · exact key _ _ _ _ (.inr (key _ _ _ _ (.inr (key _ _ _ _ (.inr (key _ _ _ _ (.inl h)))))))

theorem witness_EncodeThenDecodeIsIdentity :
    Instr.nop.wf = true ∧ (Instr.illegal 0x00000008).wf = true ∧ (Instr.illegal 0xFFFFFFFF).wf = true := by decide

theorem witness_OpcodeMapWords :
    (0x08 ≤ (0x00000008 : Word).toNat ∧ (0x00000008 : Word).toNat ≤ 0xFF) ∧
      0x08 ≤ (0x000000FF : Word).toNat ∧ (0x000000FF : Word).toNat ≤ 0xFF := by decide

theorem witness_StepRunsDueCommand :
    (due 7).latch = some { word := 7, wait := 0 } ∧ (due 7).script[(due 7).hpc]? ≠ some .reset := by decide

theorem witness_StepPerformsHostSlot_idle : State.reset.latch = none := by decide

theorem witness_StepPerformsHostSlot_busy :
    ∃ w k, (busySlot .idle).latch = some { word := w, wait := k + 1 } := ⟨0, 0, rfl⟩

theorem witness_PlacedWordRunsNext : 0 ≤ 32 ∧ 32 ≤ 32 := by decide

theorem witness_CommandWriteIsAccepted_idle :
    (slot (.write 0x008 4 1)).latch = none ∧
      (slot (.write 0x008 4 1)).nextOp = some (.write 0x008 4 1) := by decide

theorem witness_CommandWriteIsAccepted_busy :
    (busySlot (.write 0x010 4 1)).latch = some { word := 0, wait := 0 + 1 } ∧
      (busySlot (.write 0x010 4 1)).nextOp ≠ some .reset ∧
      after (step (busySlot (.write 0x010 4 1))) State.busy = some true := by decide

theorem witness_BusyCommandWriteIsDropped :
    (busySlot (.write 0x008 4 7)).latch = some { word := 0, wait := 0 + 1 } ∧
      (busySlot (.write 0x008 4 7)).nextOp = some (.write 0x008 4 7) := by decide

/-- With `busySlot_meets` and `slot_meets` for the host's slot: the offsets at the ends of each clause's
ranges. -/
theorem witness_BusyInputWritesAreDropped (a : Offset × Nat) :
    Config.Params.standard.Ok ∧ (busySlot (.write a.1 a.2 1)).cfg = Config.Params.standard ∧
      (busySlot (.write a.1 a.2 1)).nextOp = some (.write a.1 a.2 1) ∧
      (busySlot (.write a.1 a.2 1)).latch = some { word := 0, wait := 0 + 1 } ∧
      (∀ o ∈ [(0x1000 : Offset), 0x10FF], 0x1000 ≤ o.toNat ∧ o.toNat < 0x1000 + 256) ∧
      (∀ o ∈ [(0x100 : Offset), 0x105], 0x100 ≤ o.toNat ∧ o.toNat < 0x106) ∧
      (∀ o ∈ [(0x108 : Offset), 0x10D], 0x108 ≤ o.toNat ∧ o.toNat < 0x10E) ∧
      ∀ o ∈ [(0x2000 : Offset), 0x21FF], 0x2000 ≤ o.toNat ∧ o.toNat < 0x2000 + 512 :=
  ⟨by decide, rfl, rfl, rfl, by simp⟩

theorem witness_BusyInputWritesAreDropped_readOnlyIdle :
    (slot (.write 0x2000 1 1)).nextOp = some (.write 0x2000 1 1) ∧ (slot (.write 0x2000 1 1)).latch = none :=
  ⟨rfl, rfl⟩

/-- The byte ranges are those of the witness above. -/
theorem witness_IdleWritesAreStored (off : Offset) (width : Nat) (v : Word) :
    (slot (.write off width v)).latch = none ∧
      (slot (.write off width v)).nextOp = some (.write off width v) := ⟨rfl, rfl⟩

theorem witness_ReservedSpaceReadsZeroAndIgnoresWrites (off : Offset) (width : Nat) (v : Word) :
    (∀ o ∈ [(0x030 : Offset), 0x0FC], 0x030 ≤ o.toNat ∧ o.toNat ≤ 0x0FC ∧ o.toNat % 4 = 0) ∧
      (slot (.read off width)).latch = none ∧ (slot (.read off width)).nextOp = some (.read off width) ∧
      (slot (.write off width v)).latch = none ∧
      (slot (.write off width v)).nextOp = some (.write off width v) :=
  ⟨by simp, rfl, rfl, rfl, rfl⟩

/-- Idle and busy. -/
theorem witness_ReservedSpaceReadsZeroAndIgnoresWrites_completing (op : HostOp) :
    (slot op).completing = none ∧ (busySlot op).completing = none ∧ (slot op).nextOp = some op ∧
      (busySlot op).nextOp = some op := ⟨rfl, rfl, rfl, rfl⟩

/-- R49: a busy write to a reserved offset is ignored and sets no `HAZ`. -/
theorem test_bus_busy_reserved :
    after (step (busySlot (.write 0x030 4 1))) (fun t => (t.status.haz, t.busy)) = some (false, true) := by decide

theorem witness_IdleReadsReturnTrueValues :
    (slot (.read 0x02C 4)).latch = none ∧ (slot (.read 0x02C 4)).nextOp = some (.read 0x02C 4) ∧
      (0 : Word) = BitVec.ofNat 32 (slot (.read 0x02C 4)).candlen.toNat := ⟨rfl, rfl, rfl⟩

theorem witness_BusyReadsAreTrueOrDrawn (off : Offset) :
    (busySlot (.read off 4)).latch = some { word := 0, wait := 0 + 1 } ∧
      (busySlot (.read off 4)).nextOp = some (.read off 4) := ⟨rfl, rfl⟩

/-- The state `s` with the byte 0x55 at block offset `off`. -/
def withByte (s : State) (off : Offset) : State := { s with mem := [(off.toNat, 0x55)] }

/-- The ends of the four buffers. -/
theorem witness_ByteReadsReturnByteOrDraw_offsets :
    Config.Params.standard.Ok ∧
      ∀ o ∈ [(0x100 : Offset), 0x105, 0x108, 0x10D, 0x1000, 0x10FF, 0x2000, 0x21FF],
        isBufferByte Config.Params.standard o.toNat :=
  ⟨by decide, by simp [isBufferByte, Config.Params.standard]⟩

theorem witness_ByteReadsReturnByteOrDraw_idle (off : Offset) :
    (withByte (slot (.read off 1)) off).cfg = Config.Params.standard ∧
      (withByte (slot (.read off 1)) off).nextOp = some (.read off 1) ∧
      (withByte (slot (.read off 1)) off).latch = none ∧
      (withByte (slot (.read off 1)) off).mem.read off.toNat = some 0x55 ∧
      (slot (.read off 1)).mem.read off.toNat = none :=
  ⟨rfl, rfl, rfl, if_pos rfl, rfl⟩

theorem witness_ByteReadsReturnByteOrDraw_busy (off : Offset) :
    (withByte (busySlot (.read off 1)) off).cfg = Config.Params.standard ∧
      (withByte (busySlot (.read off 1)) off).nextOp = some (.read off 1) ∧
      (withByte (busySlot (.read off 1)) off).latch = some { word := 0, wait := 0 + 1 } ∧
      (withByte (busySlot (.read off 1)) off).mem.read off.toNat = some 0x55 ∧
      (busySlot (.read off 1)).mem.read off.toNat = none :=
  ⟨rfl, rfl, rfl, if_pos rfl, rfl⟩

theorem witness_ReadsHaveNoSideEffects :
    (slot (.read 0x00C 4)).completing = none ∧ (slot (.read 0x00C 4)).nextOp = some (.read 0x00C 4) ∧
      after (step (slot (.read 0x00C 4))) State.resp = some (.word 0) := by decide

theorem witness_RefusedExactlyWhenNotAdmitted :
    (slot (.read 0x006 4)).completing = none ∧ (slot (.read 0x006 4)).nextOp = some (.read 0x006 4) := by decide

/-- A `BIT1` line at an offset that is refused, and at one that is not. -/
theorem witness_RefusedExactlyWhenNotAdmitted_bit1 :
    (slot (.bit1 0 0x1000 0)).completing = none ∧
      (slot (.bit1 0 0x1000 0)).nextOp = some (.bit1 0 0x1000 0) ∧
      ¬ Admitted Config.Params.standard 0x1000 4 ∧ (slot (.bit1 0 0x02C 0)).completing = none ∧
      (slot (.bit1 0 0x02C 0)).nextOp = some (.bit1 0 0x02C 0) ∧
      Admitted Config.Params.standard 0x02C 4 := by decide

/-- Both sides of each boundary of the map. -/
theorem witness_RefusedExactlyWhenNotAdmitted_map :
    (∀ a ∈ [((0x0FC : Offset), 4), (0x10F, 1), (0x10FF, 1), (0x21FF, 1)],
        Admitted Config.Params.standard a.1 a.2) ∧
      ∀ a ∈ [((0x006 : Offset), 4), (0x0FC, 1), (0x100, 4), (0x110, 1), (0x1100, 1), (0x2200, 1), (0x1000, 2)],
        ¬ Admitted Config.Params.standard a.1 a.2 := by decide

theorem witness_ResetWinsAndClears :
    ({ slot .reset with latch := some { word := 7, wait := 0 } } : State).nextOp = some .reset := by decide

theorem witness_AcceptedCommandCompletes :
    (due 0).nextOp = none ∧ (due 0).latch = some { word := 0, wait := 0 } := by decide

theorem witness_LatencyDependsOnOpcodeAndLengthOnly (v : Word) :
    (slot (.write 0x008 4 v)).latch = none ∧ (slot (.write 0x008 4 v)).nextOp = some (.write 0x008 4 v) ∧
      (0x00000001 : Word).toNat % 2 ^ 8 = (0x80000001 : Word).toNat % 2 ^ 8 := ⟨rfl, rfl, by decide⟩

theorem witness_NopCompletesWithoutEffect : ∃ t, exec .nop (busySlot .idle) = .next t := ⟨_, rfl⟩

theorem witness_ZeroizeErasesEverything :
    (∃ t, exec .zeroize State.reset = .next t) ∧
      ∀ a ∈ [0x100, 0x105, 0x108, 0x10D, 0x1000, 0x10FF, 0x2000, 0x21FF], isBufferByte State.reset.cfg a :=
  ⟨⟨_, rfl⟩, by decide⟩

/-- A run after `ZEROIZE` in which the host writes `ILEN` = 20. -/
theorem witness_ZeroizeErasesEverything_later :
    (slot (.write 0x010 4 20)).cfg.Ok ∧ HostOp.reset ∉ (slot (.write 0x010 4 20)).script ∧
      ∃ t u, exec .zeroize (slot (.write 0x010 4 20)) = .next t ∧ Sys2Proof.core.run 1 t = .next u := by
  have run : ∀ t : State, t.latch = none → t.nextOp = some (.write 0x010 4 20) →
      ∃ u : State, Sys2Proof.core.run 1 t = .next u := fun t hl ho =>
    ⟨_, (core_run_one t).trans (by
      simp only [step, State.completing, hl, State.hostStep, ho, accessTarget]
      rfl)⟩
  obtain ⟨t, ht, hl, ho⟩ : ∃ t : State, exec .zeroize (slot (.write 0x010 4 20)) = .next t ∧ t.latch = none ∧
      t.nextOp = some (.write 0x010 4 20) := ⟨_, execZeroize_eq _, rfl, rfl⟩
  obtain ⟨u, hu⟩ := run t hl ho
  exact ⟨by decide, by decide, t, u, ht, hu⟩

theorem witness_IllegalCommandIsReported :
    (∃ t, exec (.illegal 0x00000101) State.reset = .next t) ∧ State.reset.status.haz = false := ⟨⟨_, rfl⟩, rfl⟩

theorem witness_B32encWritesText :
    (loaded [0x66]).ilen.toNat = [(0x66 : Byte)].length ∧ [(0x66 : Byte)].length ≤ (loaded [0x66]).cfg.ibufSize ∧
      (loaded [0x66]).Holds 0x1000 [0x66] := ⟨rfl, by decide, loaded_holds _⟩

theorem witness_BadLengthIsReported_codec :
    ({ State.reset with ilen := 257 } : State).cfg.ibufSize <
      ({ State.reset with ilen := 257 } : State).ilen.toNat := by decide

theorem witness_BadLengthIsReported_truncation :
    ({ State.reset with ilen := 19 } : State).ilen.toNat ≠ 20 ∧
      ({ State.reset with ilen := 21 } : State).ilen.toNat ≠ 20 := by decide

theorem witness_CodecStopsAtByteWithoutValue :
    ({ loaded [0x66] with ilen := 2 } : State).ilen.toNat ≤ 256 ∧
      1 < ({ loaded [0x66] with ilen := 2 } : State).ilen.toNat ∧
      ({ loaded [0x66] with ilen := 2 } : State).ibufAt 1 = none ∧
      ∀ k, k < 1 → (({ loaded [0x66] with ilen := 2 } : State).ibufAt k).isSome = true := by decide

/-- The text "m=Y" and the symbols 12 and 24. -/
theorem witness_B32decWritesBytes :
    (loaded [0x6D, 0x3D, 0x59]).ilen.toNat = [(0x6D : Byte), 0x3D, 0x59].length ∧
      [(0x6D : Byte), 0x3D, 0x59].length ≤ (loaded [0x6D, 0x3D, 0x59]).cfg.ibufSize ∧
      (loaded [0x6D, 0x3D, 0x59]).Holds 0x1000 [0x6D, 0x3D, 0x59] ∧
      (([(0x6D : Byte), 0x3D, 0x59].map fun c => if 0x61 ≤ c.toNat ∧ c.toNat ≤ 0x7A then c - 0x20 else c).filter
        fun c => decide (c ≠ 0x3D)) = [(12 : Symbol), 24].map alpha :=
  ⟨rfl, by decide, loaded_holds _, by decide⟩

/-- The text "ma=1", whose first invalid character has index 3. -/
theorem witness_B32decReportsInvalidCharacter :
    (loaded [0x6D, 0x61, 0x3D, 0x31]).ilen.toNat = [(0x6D : Byte), 0x61, 0x3D, 0x31].length ∧
      (loaded [0x6D, 0x61, 0x3D, 0x31]).Holds 0x1000 [0x6D, 0x61, 0x3D, 0x31] ∧
      (foldCase ([(0x6D : Byte), 0x61, 0x3D, 0x31].getD 3 0) ≠ 0x3D ∧
        ∀ v : Symbol, alpha v ≠ foldCase ([(0x6D : Byte), 0x61, 0x3D, 0x31].getD 3 0)) ∧
      ∀ j, j < 3 → foldCase ([(0x6D : Byte), 0x61, 0x3D, 0x31].getD j 0) = 0x3D ∨
        ∃ v : Symbol, alpha v = foldCase ([(0x6D : Byte), 0x61, 0x3D, 0x31].getD j 0) :=
  ⟨rfl, loaded_holds _, by decide, by decide⟩

theorem witness_Base32RoundTrip :
    (loaded [0x66]).cfg.Ok ∧ [(0x66 : Byte)].length ≤ 5 * (loaded [0x66]).cfg.ibufSize / 8 ∧
      (loaded [0x66]).ilen.toNat = [(0x66 : Byte)].length ∧ (loaded [0x66]).Holds 0x1000 [0x66] ∧
      ∃ t, exec .b32enc (loaded [0x66]) = .next t ∧ (loaded [0x4D, 0x59]).cfg = (loaded [0x66]).cfg ∧
        (loaded [0x4D, 0x59]).ilen = t.olen ∧
        ∀ j, j < t.olen.toNat → (loaded [0x4D, 0x59]).ibufAt j = t.obufAt j :=
  ⟨by decide, by decide, rfl, loaded_holds _, _, rfl, rfl, rfl, by decide⟩

theorem witness_InverseTableIsExact :
    (25 : Symbol).toNat ≤ 25 ∧ 26 ≤ (26 : Symbol).toNat ∧ 26 ≤ (31 : Symbol).toNat := by decide

/-- "my" and "=MY" have the same kept characters. -/
theorem witness_DecodingIgnoresCaseAndPadding :
    (loaded [0x6D, 0x79]).Holds 0x1000 [0x6D, 0x79] ∧ (loaded [0x3D, 0x4D, 0x59]).Holds 0x1000 [0x3D, 0x4D, 0x59] ∧
      ([(0x6D : Byte), 0x79].map foldCase).filter (fun c => decide (c ≠ 0x3D)) =
        ([(0x3D : Byte), 0x4D, 0x59].map foldCase).filter (fun c => decide (c ≠ 0x3D)) ∧
      after (exec .b32dec (loaded [0x6D, 0x79])) (fun t => t.status.err) = some false :=
  ⟨loaded_holds _, loaded_holds _, by decide, by decide⟩

theorem witness_CounterSerialisationIsBijective :
    [(0xFF : Byte), 0xFF, 0xFF, 0xFF, 0xFF, 0xFF, 0xFF, 0xFF].length = 8 := by decide

theorem witness_HotptruncComputesCode :
    (loaded digest0).ilen = 20 ∧ digest0.length = 20 ∧ (loaded digest0).Holds 0x1000 digest0 :=
  ⟨rfl, rfl, loaded_holds _⟩

theorem witness_TruncationStopsAtByteWithoutValue :
    ({ loaded (digest0.take 19) with ilen := 20 } : State).ilen = 20 ∧
      ({ loaded (digest0.take 19) with ilen := 20 } : State).ibufAt 19 = none ∧
      ∀ k, k < 19 → (({ loaded (digest0.take 19) with ilen := 20 } : State).ibufAt k).isSome = true := by decide

theorem witness_CtcmpComparesCodes :
    (codes code1 code1 6).candlen = 6 ∧ code1.length = 6 ∧
      (∀ k, k < 6 → (codes code1 code1 6).expAt k = code1[k]? ∧ (codes code1 code1 6).candAt k = code1[k]?) ∧
      (codes code1 code1 7).candlen ≠ 6 ∧ State.reset.candlen ≠ 6 := by decide

theorem witness_CtcmpComparesCodes_noValue :
    ({ State.reset with candlen := 6 } : State).candlen = 6 ∧
      ({ State.reset with candlen := 6 } : State).expAt 0 = none ∧
      (codes code1 (code1.take 5) 6).candAt 5 = none := by decide

theorem witness_TrunccmpIsTruncateThenCompare :
    after (exec .hotptrunc (loaded digest1)) (fun t => t.status.err) = some false := by decide

/-- The compare after the truncation of the statement above completes, and in the second state it stops. -/
theorem witness_TrunccmpIsTruncateThenCompare_both :
    (after (exec .hotptrunc (loaded digest1)) fun t => (after (exec .ctcmp t) State.irq).isSome) = some true ∧
      (after (exec .hotptrunc { loaded digest1 with candlen := 6 }) fun t => faultOf (exec .ctcmp t)) =
        some (some (.unwrittenRead 0x108)) := by decide

theorem witness_TrunccmpComputesAndCompares :
    ({ loaded digest1 with candlen := 6 } : State).ilen = 20 ∧ digest1.length = 20 ∧
      (loaded digest1).candlen ≠ 6 ∧
      ({ loaded digest1 with candlen := 6 }.writeAt 0x108 code1).candlen = 6 ∧ code1.length = 6 ∧
      ∀ k, k < 6 → ({ loaded digest1 with candlen := 6 }.writeAt 0x108 code1).candAt k = code1[k]? := by decide

theorem witness_TrunccmpComputesAndCompares_noValue :
    ({ loaded digest1 with candlen := 6 } : State).candlen = 6 ∧
      ({ loaded digest1 with candlen := 6 } : State).candAt 0 = none ∧
      ({ loaded digest1 with candlen := 6 } : State).ilen = 20 := by decide

theorem witness_StopsOnlyForRefusedAccessOrMissingByte : State.reset.cfg.Ok ∧ (due 1).cfg.Ok := by decide

/-- The two machines hold codes that differ in every way the statement allows. -/
theorem witness_CompareRevealsOnlyTheVerdict :
    codes code1 code1 6 =
        { codes [0, 0, 0, 0, 0, 0] code1 7 with
          candlen := (codes code1 code1 6).candlen, mem := (codes code1 code1 6).mem } ∧
      (∀ k, k < 6 → ((codes code1 code1 6).expAt k).isSome = true ∧
        ((codes code1 code1 6).candAt k).isSome = true) ∧
      after (exec .ctcmp (codes [0, 0, 0, 0, 0, 0] code1 7)) State.statusWord = some 0x00000022 := by decide

theorem witness_CompareRevealsOnlyTheVerdict_memory (a : Nat) (h1 : ¬(0x100 ≤ a ∧ a < 0x106))
    (h2 : ¬(0x108 ≤ a ∧ a < 0x10E)) :
    (codes code1 code1 6).mem.read a = (codes [0, 0, 0, 0, 0, 0] code1 7).mem.read a := by
  have e : ∀ bs : List Byte, bs.length = 6 →
      ((State.reset.mem.writeBytes 0x100 bs).writeBytes 0x108 code1).read a = State.reset.mem.read a := by
    intro bs hb
    rw [Memory.read_writeBytes, Memory.read_writeBytes, hb,
      show code1.length = 6 from rfl, if_neg h2, if_neg h1]
  exact (e code1 rfl).trans (e _ rfl).symm

theorem witness_WrittenBuffersNeverFault : zeroed.cfg.Ok ∧ zeroed.AllWritten :=
  ⟨by rw [zeroed, State.zeroBuffers_cfg]; decide, zeroed_allWritten⟩

theorem witness_EveryCompletionReports : ∃ t, exec .ctcmp State.reset = .next t := ⟨_, rfl⟩

theorem witness_CommandsWriteOnlyTheirResults :
    after (exec .b32dec (loaded [0x4D, 0x59])) (fun t => (t.status.err, t.olen)) = some (false, 1) ∧
      after (exec .hotptrunc (loaded digest0)) (fun t => (t.status.err, t.olen)) = some (false, 6) ∧
      State.reset.cfg.Ok := by decide

theorem witness_ErrorsLeaveDataAlone :
    after (exec (.illegal 0x00000008) State.reset) (fun t => (t.status.err, t.status.errcode)) =
        some (true, .illegalCommand) ∧
      after (exec .b32dec (loaded [0x31])) (fun t => (t.status.err, t.status.errcode)) =
        some (true, .invalidCharacter) := by decide

theorem witness_ErrorPriority :
    after (exec (decode 0x00000102) { State.reset with ilen := 257 }) (fun t => t.status.errcode) =
        some .illegalCommand ∧
      after (exec (decode 0x00000002) { State.reset with ilen := 257 }) (fun t => t.status.errcode) =
        some .badLength ∧
      after (exec (decode 0x00000002) (loaded [0x31])) (fun t => t.status.errcode) =
        some .invalidCharacter := by decide

/-- The invariants hold where a step is taken from. -/
theorem witness_MemoryStaysCanonical :
    (slot (.write 0x1000 1 0x66)).cfg.Ok ∧ (slot (.write 0x1000 1 0x66)).MemoryInv ∧
      ∃ t, step (slot (.write 0x1000 1 0x66)) = .next t := ⟨by decide, by decide, _, rfl⟩

theorem witness_StatusStaysConsistent :
    (busySlot .idle).StatusInv ∧ ∃ t, step (busySlot .idle) = .next t := ⟨by decide, _, rfl⟩

theorem witness_ResultsStayInRange :
    (due 3).cfg.Ok ∧ (due 3).ResultInv ∧ ∃ t, step (due 3) = .next t := ⟨by decide, by decide, _, rfl⟩

theorem witness_ResetMeetsTheInvariant :
    ({ ibufSize := 20, obufSize := 32, blockId := 0 } : Config.Params).Ok ∧
      ({ ibufSize := 2560, obufSize := 4096, blockId := 0 } : Config.Params).Ok := by decide

theorem witness_WrittenBuffersStayWritten :
    zeroed.AllWritten ∧ zeroed.nextOp ≠ some .reset ∧ ∃ t, step zeroed = .next t :=
  ⟨zeroed_allWritten, by simp [zeroed, State.nextOp, State.reset, State.resetWith],
    zeroed.tick, by
      simp [step, State.completing, State.hostStep, State.nextOp, zeroed, State.reset, State.resetWith]⟩

/-- The ends of the ranges whose writes a busy block drops, and offsets whose writes it ignores or takes. -/
theorem witness_HazardIsSticky_targets :
    (∀ a ∈ [((0x008 : Offset), 4), (0x010, 4), (0x02C, 4), (0x100, 1), (0x105, 1), (0x108, 1), (0x10D, 1),
        (0x1000, 1), (0x10FF, 1)], DroppedWhileBusy Config.Params.standard a.1 a.2) ∧
      ∀ a ∈ [((0x004 : Offset), 4), (0x00C, 4), (0x014, 4), (0x030, 4), (0x106, 1), (0x107, 1), (0x10E, 1),
        (0x10F, 1), (0x2000, 1)], ¬ DroppedWhileBusy Config.Params.standard a.1 a.2 := by
  simp [DroppedWhileBusy, Config.Params.standard]

theorem witness_HazardIsSticky :
    after (step { slot (.write 0x00C 4 8) with status := { Status.reset with haz := true } })
        (fun t => t.status.haz) = some false ∧
      after (step (busySlot (.write 0x1000 1 1))) (fun t => t.status.haz) = some true ∧
      (busySlot (.write 0x010 4 1)).busy = true ∧ (busySlot (.write 0x010 4 1)).completing = none := by decide

theorem witness_BusyAndDoneChangeOnlyAtTheirEvents :
    after (step (slot (.write 0x008 4 0))) State.busy = some true ∧
      after (step (due 0)) (fun t => (t.busy, t.status.done)) = some (false, true) ∧
      after (step { slot (.write 0x00C 4 2) with status := { Status.reset with done := true } })
        (fun t => t.status.done) = some false := by decide

theorem witness_ReportChangesOnlyAtItsEvents :
    after (step (due 8)) (fun t => t.status.err) = some true ∧ (due 8).status.err = false := by decide

theorem witness_HostNeverWritesResults :
    State.reset.cfg.Ok ∧ (slot (.write 0x014 4 5)).completing = none ∧
      (slot (.write 0x014 4 5)).nextOp ≠ some .reset ∧
      after (step (slot (.write 0x014 4 5))) State.olen = some 0 := by decide

theorem witness_EnableChangesOnlyByCtrlWrite :
    after (step (slot (.write 0x004 4 1))) State.ctrlIe = some true ∧
      (slot (.write 0x004 4 1)).ctrlIe = false := by decide

theorem witness_ParametersNeverChange : ∃ t, step (slot .reset) = .next t := ⟨_, rfl⟩

theorem witness_IrqFallsAndRises :
    after (step { slot (.write 0x004 4 1) with status := { Status.reset with done := true } }) State.irq =
        some true ∧
      after (step { slot (.write 0x00C 4 2) with status := { Status.reset with done := true }, ctrlIe := true })
        State.irq = some false := by decide

theorem witness_PollingLoopWaitsForCompletion :
    (busySlot (waitOp 0)).nextOp = some (waitOp (busySlot (waitOp 0)).hpc) ∧
      (busySlot (waitOp 0)).latch = some { word := 0, wait := 0 + 1 } ∧
      (slot (waitOp 0)).nextOp = some (waitOp (slot (waitOp 0)).hpc) ∧ (slot (waitOp 0)).latch = none := by decide

end Sys2Proof.Tests
end

/-! Proofs of the family 10_state.md: the inverse table, the reset values, and what moves `STATUS.HAZ`. -/

namespace Sys2Proof.Machine

/-! ### The alphabet and its inverse (R44, R45) -/

/-- The letters `A`..`Z` of the alphabet. -/
theorem alpha_toNat_of_letter {v : Symbol} (h : v.toNat ≤ 25) : (alpha v).toNat = 0x41 + v.toNat := by
  rw [alpha, if_pos (by omega), BitVec.toNat_ofNat]
  omega

/-- The digits `2`..`7` of the alphabet. -/
theorem alpha_toNat_of_digit {v : Symbol} (h : 26 ≤ v.toNat) : (alpha v).toNat = 0x32 + (v.toNat - 26) := by
  have hv := v.isLt
  rw [alpha, if_neg (by omega), BitVec.toNat_ofNat]
  omega

/-- A byte that has an inverse is the alphabet's byte for it. -/
theorem eq_alpha_of_inv {c : Byte} {v : Symbol} (h : inv c = some v) : c = alpha v := by
  apply BitVec.eq_of_toNat_eq
  simp only [inv] at h
  split at h
  case isTrue hletter =>
    have hv : v.toNat = c.toNat - 0x41 := by cases h; simp only [BitVec.toNat_ofNat]; omega
    rw [alpha_toNat_of_letter (by omega)]
    omega
  case isFalse =>
    split at h
    case isTrue hdigit =>
      have hv : v.toNat = c.toNat - 0x32 + 26 := by cases h; simp only [BitVec.toNat_ofNat]; omega
      rw [alpha_toNat_of_digit (by omega)]
      omega
    case isFalse => cases h

/-- `INV` and `ALPHA` are inverse to each other. -/
theorem inv_eq_some_iff (c : Byte) (v : Symbol) : inv c = some v ↔ c = alpha v :=
  ⟨eq_alpha_of_inv, fun h => h ▸ inv_alpha v⟩

/-- Settles O32: both directions of the inverse, and the alphabet's two ranges. -/
theorem inverseTableIsExact : Obligations.InverseTableIsExact :=
  ⟨inv_eq_some_iff, fun _ => alpha_toNat_of_letter, fun _ => alpha_toNat_of_digit⟩

/-! ### The reset state (R48) -/

/-- `STATUS` reads 0 after reset, whatever the parameters. -/
theorem State.resetWith_statusWord (p : Config.Params) : (State.resetWith p).statusWord = 0 := by
  change Status.reset.word false = 0
  decide

/-- `IRQ` is 0 after reset, whatever the parameters. -/
theorem State.resetWith_irq (p : Config.Params) : (State.resetWith p).irq = false := rfl

/-- Settles O19: the fields of the reset state, with `STATUS` and `IRQ` by their own lemmas. -/
theorem resetStateValues : Obligations.ResetStateValues :=
  ⟨rfl, rfl, State.resetWith_statusWord _, rfl, rfl, rfl, rfl, rfl, rfl, rfl, rfl, Memory.read_nil, rfl,
    State.resetWith_irq _⟩

/-! ### The targets whose writes a busy block drops (R36, R181, R191) -/

/-- `CMD` and the input registers. -/
def Reg.droppedWhileBusy (r : Reg) : Bool :=
  decide (r = .cmd ∨ r = .ilen ∨ r = .ctrLo ∨ r = .ctrHi ∨ r = .candlen)

/-- The targets of the host's writes that a busy block drops: `CMD`, the input registers and every buffer but
`OBUF`. -/
def Target.droppedWhileBusy : Target → Bool
  | .reg r => r.droppedWhileBusy
  | .byte b _ => decide (b ≠ .obuf)
  | .reservedByte => false

theorem regAt_droppedWhileBusy_iff {o : Nat} (h4 : o % 4 = 0) :
    (regAt o).droppedWhileBusy = true ↔ o = 0x008 ∨ o = 0x010 ∨ o = 0x01C ∨ o = 0x020 ∨ o = 0x02C := by
  obtain ⟨-, -, hcmd, -, hilen, -, -, hlo, hhi, -, -, hcandlen, -⟩ := regAt_eq_iff h4
  simp only [Reg.droppedWhileBusy, decide_eq_true_eq, hcmd, hilen, hlo, hhi, hcandlen]

theorem byteTarget_droppedWhileBusy_iff {p : Config.Params} {o : Nat} {g : Target}
    (h : byteTarget p o = some g) :
    g.droppedWhileBusy = true ↔ (0x100 ≤ o ∧ o < 0x106) ∨ (0x108 ≤ o ∧ o < 0x10E) ∨
      (0x1000 ≤ o ∧ o < 0x1000 + p.ibufSize) := by
  simp only [byteTarget] at h
  repeat' split at h
  all_goals cases h
  all_goals
    simp only [Target.droppedWhileBusy, ne_eq, reduceCtorEq, not_false_eq_true, not_true_eq_false, decide_true,
      decide_false, true_iff, Bool.false_eq_true, false_iff]
    omega

/-- A write that the address map admits reaches such a target exactly when the statements call it dropped. -/
theorem accessTarget_droppedWhileBusy_iff {p : Config.Params} {off : Offset} {w : Nat} {g : Target}
    (h : accessTarget p off w = some g) : g.droppedWhileBusy = true ↔ DroppedWhileBusy p off w := by
  simp only [accessTarget] at h
  split at h
  case isTrue hlow =>
    split at h
    case isTrue hword =>
      cases h
      rw [Target.droppedWhileBusy, regAt_droppedWhileBusy_iff hword.2]
      simp [DroppedWhileBusy, ← BitVec.toNat_inj, hword.1]
    case isFalse => cases h
  case isFalse hhigh =>
    split at h
    case isTrue hbyte =>
      rw [byteTarget_droppedWhileBusy_iff h]
      simp [DroppedWhileBusy, hbyte]
    case isFalse => cases h

/-- The one way to reach `STATUS`. -/
theorem accessTarget_status {p : Config.Params} {off : Offset} {w : Nat}
    (h : accessTarget p off w = some (.reg .status)) : off = 0x00C ∧ w = 4 := by
  obtain ⟨hw, h4, -, hr⟩ := accessTarget_reg h
  obtain ⟨-, -, -, hstatus, -⟩ := regAt_eq_iff h4
  exact ⟨BitVec.eq_of_toNat_eq (hstatus.mp hr), hw⟩

/-! ### What moves `STATUS` -/

/-- `STATUS` after an admitted write, in every case. -/
theorem State.busWrite_status (s : State) (v : Word) (g : Target) :
    (s.busWrite v g).status =
      if s.busy = true ∧ g.droppedWhileBusy = true then s.status.hazard
      else if g = .reg .cmd then s.status.accepted
      else if g = .reg .status then s.status.written v
      else s.status := by
  cases g with
  | reg r =>
    cases hb : s.busy <;> cases r <;>
      simp [State.busWrite, State.writeReg, State.inputWrite, hb, Target.droppedWhileBusy, Reg.droppedWhileBusy]
  | byte b a =>
    cases hb : s.busy <;> cases b <;>
      simp [State.busWrite, State.writeByte, State.inputWrite, hb, Target.droppedWhileBusy]
  | reservedByte => simp [State.busWrite, Target.droppedWhileBusy]

/-- A command completes without error or with one, and `STATUS` says so (R182, R183). -/
theorem exec_status {i : Instr} {s t : State} (h : exec i s = .next t) :
    (∃ m l, t.status = s.status.completed m l) ∨ ∃ c, t.status = s.status.failed c := by
  cases i with
  | nop => cases h; exact .inl ⟨_, _, rfl⟩
  | ctrser => cases h; exact .inl ⟨_, _, rfl⟩
  | zeroize => cases h; exact .inl ⟨false, false, by simp⟩
  | illegal w => cases h; exact .inr ⟨_, rfl⟩
  | b32enc =>
    obtain ⟨-, rfl⟩ | ⟨-, bs, -, -, rfl⟩ := execB32enc_next h
    · exact .inr ⟨_, rfl⟩
    · exact .inl ⟨_, _, rfl⟩
  | b32dec =>
    obtain ⟨-, rfl⟩ | ⟨-, text, -, -, rfl⟩ := execB32dec_next h
    · exact .inr ⟨_, rfl⟩
    · obtain ⟨i, -, -, ht⟩ | ⟨-, ht⟩ := s.decodeText_cases text <;> rw [ht]
      · exact .inr ⟨_, rfl⟩
      · exact .inl ⟨_, _, rfl⟩
  | hotptrunc =>
    obtain ⟨-, rfl⟩ | ⟨-, d, -, -, rfl⟩ := execHotptrunc_next h
    · exact .inr ⟨_, rfl⟩
    · exact .inl ⟨_, _, rfl⟩
  | ctcmp =>
    obtain ⟨-, rfl⟩ | ⟨-, e, c, -, -, rfl⟩ := State.compare_next h <;> exact .inl ⟨_, _, rfl⟩
  | trunccmp =>
    obtain ⟨-, rfl⟩ | ⟨-, d, -, -, h⟩ := execTrunccmp_next h
    · exact .inr ⟨_, rfl⟩
    · obtain ⟨-, rfl⟩ | ⟨-, e, c, -, -, rfl⟩ := State.compare_next h <;> exact .inl ⟨_, _, rfl⟩

/-- No completion moves `HAZ` (R29). -/
theorem exec_haz {i : Instr} {s t : State} (h : exec i s = .next t) : t.status.haz = s.status.haz := by
  obtain ⟨m, l, ht⟩ | ⟨c, ht⟩ := exec_status h <;> rw [ht]
  · exact Status.completed_haz _ m l
  · exact Status.failed_haz _ c

@[simp] theorem State.busRead_status (s : State) (g : Target) : (s.busRead g).status = s.status := by
  obtain ⟨r, d, h, -⟩ := s.busRead_shape g
  rw [h]

@[simp] theorem Status.written_haz (t : Status) (v : Word) : (t.written v).haz = (t.haz && !v.getLsbD 3) := rfl

/-- A host slot moves `STATUS` by a reset or by a write, and by nothing else. -/
theorem State.hostStep_status {s t : State} (h : s.hostStep = .next t) :
    (s.nextOp = some .reset ∧ t.status = Status.reset) ∨
    (∃ off w v g, s.nextOp = some (.write off w v) ∧ accessTarget s.cfg off w = some g ∧
      t.status = (s.tick.busWrite v g).status) ∨
    ((∀ off w v, s.nextOp ≠ some (.write off w v)) ∧ t.status = s.status) := by
  obtain ⟨ho, rfl⟩ | ⟨ho, rfl⟩ | ⟨off, w, g, ho, -, rfl⟩ | ⟨off, w, v, g, ho, hg, rfl⟩ |
    ⟨l, off, b, g, ho, -, rfl⟩ | ⟨ho, rfl⟩ := State.hostStep_next h
  case inr.inr.inr.inl => exact .inr (.inl ⟨off, w, v, g, ho, hg, rfl⟩)
  case inr.inr.inr.inr.inr => exact .inl ⟨ho, rfl⟩
  all_goals exact .inr (.inr ⟨by simp [ho], by simp⟩)

/-! ### What moves `HAZ` (R29) -/

/-- `HAZ` after an admitted write: bit [3] of a `STATUS` write clears it, a dropped write sets it. -/
theorem State.busWrite_haz (s : State) (v : Word) (g : Target) :
    (s.busWrite v g).status.haz =
      (s.status.haz && !(decide (g = .reg .status) && v.getLsbD 3) || s.busy && g.droppedWhileBusy) := by
  rw [State.busWrite_status]
  by_cases hdrop : s.busy = true ∧ g.droppedWhileBusy = true
  · simp [hdrop]
  · have hkept : (s.busy && g.droppedWhileBusy) = false := by simpa using hdrop
    rw [if_neg hdrop, hkept]
    by_cases hcmd : g = .reg .cmd
    · simp [hcmd]
    · by_cases hstatus : g = .reg .status <;> simp [hcmd, hstatus]

/-- `HAZ` after a step: a completion keeps it, a reset clears it, a write moves it by its own rule, and every other
host slot keeps it. -/
theorem step_haz {s t : State} (h : step s = .next t) :
    (s.completing ≠ none ∧ t.status.haz = s.status.haz) ∨
    (s.nextOp = some .reset ∧ t.status.haz = false) ∨
    (∃ off w v g, s.completing = none ∧ s.nextOp = some (.write off w v) ∧ accessTarget s.cfg off w = some g ∧
      t.status.haz =
        (s.status.haz && !(decide (g = .reg .status) && v.getLsbD 3) || s.busy && g.droppedWhileBusy)) ∨
    ((∀ off w v, s.nextOp ≠ some (.write off w v)) ∧ t.status.haz = s.status.haz) := by
  obtain ⟨w, hc, hs⟩ | ⟨hc, hs⟩ := step_cases s <;> rw [hs] at h
  · exact .inl ⟨by simp [hc], exec_haz h⟩
  · obtain ⟨ho, ht⟩ | ⟨off, w, v, g, ho, hg, ht⟩ | ⟨ho, ht⟩ := State.hostStep_status h
    · exact .inr (.inl ⟨ho, congrArg Status.haz ht⟩)
    · refine .inr (.inr (.inl ⟨off, w, v, g, hc, ho, hg, ?_⟩))
      rw [ht, State.busWrite_haz, State.tick_status, State.tick_busy]
    · exact .inr (.inr (.inr ⟨ho, congrArg Status.haz ht⟩))

/-- Only a reset or a `STATUS` write with bit [3] clears `HAZ`. -/
theorem step_haz_falls {s t : State} (h : step s = .next t) (hs : s.status.haz = true)
    (ht : t.status.haz = false) :
    s.nextOp = some .reset ∨ ∃ v : Word, s.nextOp = some (.write 0x00C 4 v) ∧ v.getLsbD 3 = true := by
  obtain ⟨-, hkept⟩ | ⟨ho, -⟩ | ⟨off, w, v, g, -, ho, hg, hw⟩ | ⟨-, hkept⟩ := step_haz h
  · simp [hkept, hs] at ht
  · exact .inl ho
  · have hclear : (g = .reg .status ∧ v.getLsbD 3 = true) ∧ (s.busy = true → g.droppedWhileBusy = false) := by
      simpa [hw, hs] using ht
    obtain ⟨⟨rfl, hv⟩, -⟩ := hclear
    obtain ⟨rfl, rfl⟩ := accessTarget_status hg
    exact .inr ⟨v, ho, hv⟩
  · simp [hkept, hs] at ht

/-- Only a write that a busy block drops sets `HAZ`. -/
theorem step_haz_rises {s t : State} (h : step s = .next t) (hs : s.status.haz = false)
    (ht : t.status.haz = true) :
    s.busy = true ∧ s.completing = none ∧
      ∃ off w v, s.nextOp = some (.write off w v) ∧ DroppedWhileBusy s.cfg off w := by
  obtain ⟨-, hkept⟩ | ⟨-, hclear⟩ | ⟨off, w, v, g, hc, ho, hg, hw⟩ | ⟨-, hkept⟩ := step_haz h
  · simp [hkept, hs] at ht
  · simp [hclear] at ht
  · have hdrop : s.busy = true ∧ g.droppedWhileBusy = true := by simpa [hw, hs] using ht
    obtain ⟨hb, hd⟩ := hdrop
    exact ⟨hb, hc, off, w, v, ho, (accessTarget_droppedWhileBusy_iff hg).mp hd⟩
  · simp [hkept, hs] at ht

/-- Every write that a busy block drops sets `HAZ`. -/
theorem step_haz_of_dropped {s t : State} {off : Offset} {w : Nat} {v : Word} (h : step s = .next t)
    (hb : s.busy = true) (hc : s.completing = none) (ho : s.nextOp = some (.write off w v))
    (hd : DroppedWhileBusy s.cfg off w) : t.status.haz = true := by
  obtain ⟨hdue, -⟩ | ⟨hr, -⟩ | ⟨off', w', v', g, -, ho', hg, hw⟩ | ⟨hno, -⟩ := step_haz h
  · exact absurd hc hdue
  · simp [ho] at hr
  · obtain ⟨rfl, rfl, rfl⟩ : off = off' ∧ w = w' ∧ v = v' := by simpa [ho] using ho'
    simp [hw, hb, (accessTarget_droppedWhileBusy_iff hg).mpr hd]
  · exact absurd ho (hno off w v)

/-- Settles O53: the two directions in which a step moves `HAZ`, and the writes that always set it. -/
theorem hazardIsSticky : Obligations.HazardIsSticky := fun _ _ h =>
  ⟨step_haz_falls h, step_haz_rises h, fun _ _ _ => step_haz_of_dropped h⟩

end Sys2Proof.Machine

/-! Proofs of the family 20_memory.md: the host accesses that the address map refuses. -/

namespace Sys2Proof.Machine

/-! ### Steps at which the host accesses the block (R63, R64) -/

/-- The offset and the width at which a host operation accesses the block; a `BIT1` line reads 32 bits (R88). -/
def HostOp.access : HostOp → Option (Offset × Nat)
  | .read off width => some (off, width)
  | .write off width _ => some (off, width)
  | .bit1 _ off _ => some (off, 4)
  | .idle => none
  | .reset => none

theorem step_of_completing_none {s : State} (hc : s.completing = none) : step s = s.hostStep := by
  simp only [step, hc]

/-- An access that the address map refuses stops the host with the bus error. -/
theorem State.hostStep_of_not_admitted {s : State} {op : HostOp} {off : Offset} {w : Nat}
    (ho : s.nextOp = some op) (ha : op.access = some (off, w)) (hw : ¬ Admitted s.cfg off w) :
    s.hostStep = .fault (.busError off) := by
  have hg := (accessTarget_none_iff s.cfg off w).mpr hw
  cases op with
  | read | write | bit1 => cases ha; simp only [State.hostStep, ho, hg]
  | idle | reset => cases ha

/-- An access that the address map admits answers a next state. -/
theorem State.hostStep_of_admitted {s : State} {op : HostOp} {off : Offset} {w : Nat}
    (ho : s.nextOp = some op) (ha : op.access = some (off, w)) (hw : Admitted s.cfg off w) :
    ∃ t, s.hostStep = .next t := by
  obtain ⟨g, hg⟩ : ∃ g, accessTarget s.cfg off w = some g :=
    Option.ne_none_iff_exists'.mp fun h => (accessTarget_none_iff s.cfg off w).mp h hw
  cases op with
  | read | write | bit1 => cases ha; simp only [State.hostStep, ho, hg]; exact ⟨_, rfl⟩
  | idle | reset => cases ha

/-- A host slot that accesses the block is refused exactly when the access is not admitted. -/
theorem State.hostStep_busError_iff {s : State} {op : HostOp} {off : Offset} {w : Nat}
    (ho : s.nextOp = some op) (ha : op.access = some (off, w)) :
    s.hostStep = .fault (.busError off) ↔ ¬ Admitted s.cfg off w := by
  refine ⟨fun hfault hw => ?_, State.hostStep_of_not_admitted ho ha⟩
  obtain ⟨t, ht⟩ := State.hostStep_of_admitted ho ha hw
  cases hfault.symm.trans ht

/-- Settles O17: the three forms of an access are host slots with that offset and width. -/
theorem refusedExactlyWhenNotAdmitted : Obligations.RefusedExactlyWhenNotAdmitted := by
  intro s off width hc hop
  obtain ⟨op, ho, ha⟩ : ∃ op, s.nextOp = some op ∧ op.access = some (off, width) := by
    obtain ho | ⟨v, ho⟩ | ⟨rfl, l, b, ho⟩ := hop
    · exact ⟨_, ho, rfl⟩
    · exact ⟨_, ho, rfl⟩
    · exact ⟨_, ho, rfl⟩
  rw [step_of_completing_none hc]
  exact ⟨State.hostStep_busError_iff ho ha, State.hostStep_of_admitted ho ha⟩

end Sys2Proof.Machine

/-! Proofs of the family 30_encoding.md: the words that decode to the illegal command. -/

namespace Sys2Proof

/-! ### The fields of a command word as numbers (R80) -/

theorem opcOf_toNat (w : Word) : (opcOf w).toNat = w.toNat % 2 ^ 8 := by
  simp [opcOf]

theorem rsvOf_toNat (w : Word) : (rsvOf w).toNat = w.toNat / 2 ^ 8 := by
  have hw := w.isLt
  simp only [rsvOf, BitVec.extractLsb'_toNat, Nat.shiftRight_eq_div_pow]
  omega

theorem rsvOf_ne_zero_iff (w : Word) : rsvOf w ≠ 0 ↔ w.toNat / 2 ^ 8 ≠ 0 := by
  rw [← rsvOf_toNat, ne_eq, ← BitVec.toNat_inj]; rfl

/-! ### The illegal command (R84, R86) -/

theorem decode_of_rsvOf_ne_zero {w : Word} (h : rsvOf w ≠ 0) : decode w = .illegal w := if_neg h

/-- No opcode of 0x08 or more is in the opcode map (R85). -/
theorem decode_of_undefined_opcode {w : Word} (h : 8 ≤ (opcOf w).toNat) : decode w = .illegal w := by
  unfold decode
  split
  · split
    case h_9 => rfl
    all_goals omega
  · rfl

/-- With no reserved bit set, every opcode below 0x08 selects one of the eight commands (R83, R85). -/
theorem decode_ne_illegal {w : Word} (hr : rsvOf w = 0) (ho : (opcOf w).toNat < 8) (v : Word) :
    decode w ≠ .illegal v := by
  simp only [decode, if_pos hr]
  generalize (opcOf w).toNat = opc at ho
  interval_cases opc <;> exact Instr.noConfusion

/-- The illegal command carries the word it was decoded from, and its condition on the fields. -/
theorem decode_eq_illegal_iff (w v : Word) :
    decode w = .illegal v ↔ v = w ∧ (rsvOf w ≠ 0 ∨ 8 ≤ (opcOf w).toNat) := by
  by_cases hbad : rsvOf w ≠ 0 ∨ 8 ≤ (opcOf w).toNat
  · have hw : decode w = .illegal w := hbad.elim decode_of_rsvOf_ne_zero decode_of_undefined_opcode
    rw [hw, Instr.illegal.injEq, and_iff_left hbad, eq_comm]
  · obtain ⟨hr, ho⟩ := not_or.mp hbad
    have hne := decode_ne_illegal (not_not.mp hr) (not_le.mp ho) v
    simp only [hne, hbad, and_false]

/-- Settles O4: the condition on the fields, read as numbers. -/
theorem illegalExactlyWhenReservedOrUndefined : Obligations.IllegalExactlyWhenReservedOrUndefined := by
  intro w v
  rw [decode_eq_illegal_iff, rsvOf_ne_zero_iff, opcOf_toNat]

end Sys2Proof

/-! Proofs of the family 40_base32.md: the length law, the text that `B32ENC` writes, and the round trip. -/

namespace Sys2Proof.Machine

/-! ### The length law (R103) -/

/-- The length law by whole groups of five bytes and the bytes that remain. -/
theorem encodedLen_group (q r : Nat) : encodedLen (5 * q + r) = 8 * q + encodedLen r := by
  simp only [encodedLen]
  omega

/-- The length, the pad bits and the last group, for each number of bytes beyond the whole groups. -/
theorem encodedLen_remainder {r : Nat} (h : r < 5) :
    encodedLen r = [0, 2, 4, 5, 7].getD r 0 ∧ 5 * encodedLen r = 8 * r + [0, 2, 4, 1, 3].getD r 0 ∧
      encodedLen r % 8 ∈ [0, 2, 4, 5, 7] := by
  revert r
  decide

/-- Settles O31: whole groups add eight characters each, and the remainder has five cases. -/
theorem encodedLengthLaw : Obligations.EncodedLengthLaw := by
  intro bs
  have hsplit := encodedLen_group (bs.length / 5) (bs.length % 5)
  rw [Nat.div_add_mod] at hsplit
  obtain ⟨hlen, hpad, hmod⟩ := encodedLen_remainder (Nat.mod_lt bs.length (by decide : 0 < 5))
  rw [base32Encode_length]
  refine ⟨rfl, by omega, by omega, ?_⟩
  rwa [hsplit, Nat.mul_add_mod]

/-! ### The codec commands on input bytes that have values -/

/-- The input bytes of a state whose `IBUF` holds a sequence of `ILEN` bytes. -/
theorem State.inputBytes_of_holds {s : State} {bs : List Byte} (hlen : s.ilen.toNat = bs.length)
    (hold : s.Holds 0x1000 bs) : s.inputBytes = .ok bs :=
  (s.mem.readBytes_ok_iff _ _ _).mpr ⟨hlen.symm, hold⟩

theorem exec_b32enc_of_badLength {s : State} (h : s.cfg.ibufSize < s.ilen.toNat) :
    exec .b32enc s = .next (s.blockError .badLength 0) := by
  rw [exec, execB32enc, State.inputLen, if_pos h]

theorem exec_b32enc_of_holds {s : State} {bs : List Byte} (hlen : s.ilen.toNat = bs.length)
    (hfit : bs.length ≤ s.cfg.ibufSize) (hold : s.Holds 0x1000 bs) :
    exec .b32enc s = .next ((s.writeAt obufBase (base32Encode bs)).complete (encodedLen bs.length)) := by
  rw [exec, execB32enc, State.inputLen, if_neg (by omega), State.inputBytes_of_holds hlen hold, onBytes]

theorem exec_b32dec_of_holds {s : State} {text : List Byte} (hlen : s.ilen.toNat = text.length)
    (hfit : text.length ≤ s.cfg.ibufSize) (hold : s.Holds 0x1000 text) :
    exec .b32dec s = .next (s.decodeText text) := by
  rw [exec, execB32dec, State.inputLen, if_neg (by omega), State.inputBytes_of_holds hlen hold, onBytes]

/-! ### The text that `B32ENC` writes (R102) -/

/-- A bit of the byte stream by the formula of R10, with the zero pad beyond the last byte. -/
theorem byteStreamBit_eq_shift (bs : List Byte) (i : Nat) :
    byteStreamBit bs i =
      (decide (i < 8 * bs.length) && (bs.getD (i / 8) 0 >>> (7 - i % 8)).getLsbD 0) := by
  have hbit : i % 8 < 8 := Nat.mod_lt _ (by decide)
  by_cases h : i < 8 * bs.length
  · simp [byteStreamBit, BitVec.getMsbD, h, hbit]
  · have hpad : bs.length ≤ i / 8 := by omega
    simp [byteStreamBit, List.getD_eq_getElem?_getD, List.getElem?_eq_none hpad, h]

/-- The bits of a symbol of the encoding, most significant first. -/
theorem encodedSymbol_getMsbD (bs : List Byte) (j : Nat) {k : Nat} (h : k < 5) :
    (encodedSymbol bs j).getMsbD k = byteStreamBit bs (5 * j + k) := by
  rw [encodedSymbol, packMsb_getMsbD, decide_eq_true h, Bool.true_and]

theorem base32Encode_getElem? (bs : List Byte) {j : Nat} (h : j < encodedLen bs.length) :
    (base32Encode bs)[j]? = some (alpha (encodedSymbol bs j)) := by
  rw [base32Encode, List.getElem?_map, List.getElem?_range h, Option.map_some]

/-- Settles O25: the text stands in `OBUF`, its symbols are the input's bits, and R6 makes it fit. -/
theorem b32encWritesText : Obligations.B32encWritesText := by
  refine ⟨by decide, fun s h => exec_b32enc_of_badLength h, fun s bs hlen hfit hold => ⟨?_, ?_⟩⟩
  · rintro ⟨-, -, -, hobuf, -⟩
    omega
  · refine ⟨s.mem.writeBytes obufBase (base32Encode bs), exec_b32enc_of_holds hlen hfit hold,
      fun j hj => ⟨encodedSymbol bs j, ?_, fun k hk => ?_⟩, ?_⟩
    · exact (Memory.read_writeBytes_at (hj.trans_eq (base32Encode_length bs).symm)).trans
        (base32Encode_getElem? bs hj)
    · rw [encodedSymbol_getMsbD bs j hk, byteStreamBit_eq_shift]
    · have hframe := Memory.writeBytes_sameOutside s.mem obufBase (base32Encode bs)
      rwa [base32Encode_length] at hframe

/-! ### The round trip (R109) -/

/-- A length within a buffer of at most 4096 bytes (R6) fits `OLEN`. -/
theorem olen_toNat {n : Nat} (h : n ≤ 4096) : (BitVec.ofNat 16 n).toNat = n := by
  rw [BitVec.toNat_ofNat]
  exact Nat.mod_eq_of_lt (by omega)

/-- A buffer into which a sequence was written holds it. -/
theorem State.writeAt_holds (s : State) (base : Nat) (vs : List Byte) : (s.writeAt base vs).Holds base vs :=
  fun _ h => (Memory.read_writeBytes_at h).trans (List.getElem?_eq_getElem h)

/-- Decoding the encoding of a byte sequence writes the sequence and completes without error. -/
theorem State.decodeText_base32Encode (s : State) (bs : List Byte) :
    s.decodeText (base32Encode bs) = (s.writeAt obufBase bs).complete bs.length := by
  have hbytes := base32Decode_encodedSymbols bs
  rw [base32Encode_eq_map]
  generalize hvs : (List.range (encodedLen bs.length)).map (encodedSymbol bs) = vs at hbytes ⊢
  have hcount : decodedLen vs.length = bs.length := by rw [← base32Decode_length, hbytes]
  simp only [State.decodeText, firstInvalid_alpha, symbolValues_alpha, kept_alpha_length, hbytes, hcount]

/-- Settles O30: the copied text is held by `IBUF`, and decoding it writes the encoded bytes. -/
theorem base32RoundTrip : Obligations.Base32RoundTrip := by
  rintro s bs ⟨-, hibuf, -⟩ hfit hlen hold
  have htext : encodedLen bs.length ≤ s.cfg.ibufSize := by
    simp only [encodedLen]
    omega
  have hobuf := s.writeAt_holds obufBase (base32Encode bs)
  refine ⟨_, exec_b32enc_of_holds hlen (by omega) hold, rfl, fun u hcfg hilen hcopy => ?_⟩
  have hulen : u.ilen.toNat = (base32Encode bs).length := by
    rw [hilen, base32Encode_length]
    exact olen_toNat (by omega)
  have huold : u.Holds 0x1000 (base32Encode bs) := fun j hj =>
    (hcopy j (by rwa [← hilen, hulen])).trans (hobuf j hj)
  refine ⟨_, exec_b32dec_of_holds hulen (by simpa [hcfg] using htext) huold, ?_⟩
  rw [State.decodeText_base32Encode]
  exact ⟨olen_toNat (by omega), u.writeAt_holds obufBase bs, rfl, rfl⟩

end Sys2Proof.Machine

/-! Proofs of the family 41_hotp.md: the counter's serialisation and the truncation of a digest. -/

namespace Sys2Proof.Machine

/-- Two words side by side as one number: the left word counts in units of the right word's range. -/
theorem toNat_append_eq_add {m n : Nat} (x : BitVec m) (y : BitVec n) :
    (x ++ y).toNat = x.toNat * 2 ^ n + y.toNat := by
  rw [BitVec.toNat_append, ← Nat.shiftLeft_add_eq_or_of_lt y.isLt, Nat.shiftLeft_eq]

/-! ### The bytes that `CTRSER` writes (R130) -/

theorem State.counter_toNat (s : State) : s.counter.toNat = s.ctrHi.toNat * 2 ^ 32 + s.ctrLo.toNat :=
  toNat_append_eq_add _ _

/-- Byte `i` of the serialisation as a quotient of the counter. -/
theorem counterBytes_getElem? (c : BitVec 64) {i : Nat} (h : i < 8) :
    (counterBytes c)[i]? = some (BitVec.ofNat 8 (c.toNat / 2 ^ (8 * (7 - i)))) := by
  have hshift : 56 - 8 * i = 8 * (7 - i) := by omega
  rw [counterBytes, List.getElem?_map, List.getElem?_range h, Option.map_some, BitVec.extractLsb', hshift,
    Nat.shiftRight_eq_div_pow]

/-- `CTRSER` completes from every state. -/
theorem exec_ctrser (s : State) :
    exec .ctrser s = .next ((s.writeAt obufBase (counterBytes s.counter)).complete 8) := rfl

/-- `OBUF` after a `CTRSER`. -/
theorem State.writeAt_counterBytes_read (s : State) {i : Nat} (h : i < 8) :
    (s.writeAt obufBase (counterBytes s.counter)).mem.read (0x2000 + i) = (counterBytes s.counter)[i]? :=
  Memory.read_writeBytes_at (h.trans_eq (counterBytes_length s.counter).symm)

/-- Settles O34: the written bytes are the counter's quotients, and the write reaches eight bytes only. -/
theorem ctrserWritesBigEndianCounter : Obligations.CtrserWritesBigEndianCounter := by
  refine ⟨by decide, fun s => ⟨_, exec_ctrser s, fun i hi => ?_, ?_⟩⟩
  · rw [State.writeAt_counterBytes_read s hi, counterBytes_getElem? s.counter hi, State.counter_toNat]
  · have hframe := Memory.writeBytes_sameOutside s.mem obufBase (counterBytes s.counter)
    rwa [counterBytes_length] at hframe

/-! ### Byte sequences as big-endian numbers (R131) -/

/-- The number a byte sequence stands for, its first byte the most significant. -/
def bigEndian (bs : List Byte) : Nat := bs.foldl (fun acc b => acc * 256 + b.toNat) 0

/-- The library's digit lists begin with the least significant digit. -/
theorem bigEndian_eq_ofDigits (bs : List Byte) :
    bigEndian bs = Nat.ofDigits 256 (bs.reverse.map BitVec.toNat) := by
  simp only [bigEndian, Nat.ofDigits_eq_foldr, List.foldr_map, List.foldr_reverse, Nat.cast_id, mul_comm,
    add_comm]

/-- A byte is a digit in base 256. -/
theorem toNat_lt_of_mem_map {bs : List Byte} : ∀ x ∈ bs.map BitVec.toNat, x < 256 := by
  intro x hx
  obtain ⟨b, -, rfl⟩ := List.mem_map.mp hx
  exact b.isLt

theorem bigEndian_lt (bs : List Byte) : bigEndian bs < 256 ^ bs.length := by
  have hlt := Nat.ofDigits_lt_base_pow_length (by decide) (toNat_lt_of_mem_map (bs := bs.reverse))
  rwa [← bigEndian_eq_ofDigits, List.length_map, List.length_reverse] at hlt

/-- Byte sequences of one length that stand for one number are equal. -/
theorem eq_of_bigEndian_eq {bs cs : List Byte} (hlen : bs.length = cs.length)
    (h : bigEndian bs = bigEndian cs) : bs = cs := by
  rw [bigEndian_eq_ofDigits, bigEndian_eq_ofDigits] at h
  have hdigits := Nat.ofDigits_inj_of_len_eq (by decide) (by simpa using hlen) toNat_lt_of_mem_map
    toNat_lt_of_mem_map h
  exact List.reverse_injective (List.map_injective_iff.mpr (fun _ _ => BitVec.eq_of_toNat_eq) hdigits)

/-- The first `n` bytes of the serialisation stand for the counter without its lower bytes. -/
theorem bigEndian_counterBytes_upto (c : BitVec 64) {n : Nat} (h : n ≤ 8) :
    bigEndian ((List.range n).map fun i => c.extractLsb' (56 - 8 * i) 8) = c.toNat / 2 ^ (64 - 8 * n) := by
  induction n with
  | zero => exact (Nat.div_eq_of_lt c.isLt).symm
  | succ n ih =>
    have hupto := ih (by omega)
    have hbits : 64 - 8 * n = 56 - 8 * n + 8 := by omega
    have hlast : 64 - 8 * (n + 1) = 56 - 8 * n := by omega
    rw [hbits, pow_add, ← Nat.div_div_eq_div_mul] at hupto
    rw [bigEndian] at hupto ⊢
    rw [List.range_succ, List.map_append, List.foldl_append, hupto, hlast, List.map_singleton, List.foldl_cons,
      List.foldl_nil, BitVec.extractLsb'_toNat, Nat.shiftRight_eq_div_pow]
    exact Nat.div_add_mod' _ _

/-- The serialisation stands for the counter. -/
theorem bigEndian_counterBytes (c : BitVec 64) : bigEndian (counterBytes c) = c.toNat :=
  (bigEndian_counterBytes_upto c le_rfl).trans (Nat.div_one _)

theorem counterBytes_injective : Function.Injective counterBytes := by
  intro c c' h
  apply BitVec.eq_of_toNat_eq
  rw [← bigEndian_counterBytes c, h, bigEndian_counterBytes]

/-- Eight bytes are the serialisation of the number they stand for. -/
theorem counterBytes_bigEndian {bs : List Byte} (h : bs.length = 8) :
    counterBytes (BitVec.ofNat 64 (bigEndian bs)) = bs := by
  apply eq_of_bigEndian_eq ((counterBytes_length _).trans h.symm)
  have hlt := bigEndian_lt bs
  rw [h] at hlt
  rw [bigEndian_counterBytes, BitVec.toNat_ofNat]
  exact Nat.mod_eq_of_lt hlt

/-- Settles O35: the number a sequence stands for is the inverse of the serialisation. -/
theorem counterSerialisationIsBijective : Obligations.CounterSerialisationIsBijective := by
  refine ⟨fun s => ⟨_, exec_ctrser s, fun _ => s.writeAt_counterBytes_read⟩,
    fun c => ⟨counterBytes_length c, bigEndian_counterBytes c⟩, fun bs h => ?_⟩
  have hbytes := counterBytes_bigEndian h
  exact ⟨_, hbytes, fun c' hc' => counterBytes_injective (hc'.trans hbytes.symm)⟩

/-! ### The laws of the truncation as numbers (R133 to R136) -/

theorem truncOffset_eq_mod (d : List Byte) : truncOffset d = (d.getD 19 0).toNat % 16 := by
  rw [truncOffset, BitVec.toNat_and]
  exact Nat.and_two_pow_sub_one_eq_mod _ 4

theorem truncValue_toNat (d : List Byte) :
    (truncValue d).toNat =
      (d.getD (truncOffset d) 0).toNat % 128 * 2 ^ 24 + (d.getD (truncOffset d + 1) 0).toNat * 2 ^ 16 +
        (d.getD (truncOffset d + 2) 0).toNat * 2 ^ 8 + (d.getD (truncOffset d + 3) 0).toNat := by
  simp only [truncValue, toNat_append_eq_add, BitVec.toNat_setWidth, digestByte]
  ring

/-- Every digit byte is the ASCII code of its decimal digit. -/
theorem digitByte_toNat (code k : Nat) : (digitByte code k).toNat = 0x30 + code / 10 ^ (5 - k) % 10 := by
  rw [digitByte, BitVec.toNat_ofNat]
  omega

theorem codeDigits_getElem? (code : Nat) {k : Nat} (h : k < 6) :
    (codeDigits code)[k]? = some (digitByte code k) := by
  rw [codeDigits, List.getElem?_map, List.getElem?_range h, Option.map_some]

/-! ### The buffers after a truncation (R132) -/

theorem State.truncate_read_exp (s : State) (d : List Byte) {k : Nat} (h : k < 6) :
    (s.truncate d).mem.read (0x100 + k) = some (digitByte (codeOf (truncValue d)) k) := by
  rw [State.truncate_eq, ← codeDigits_getElem? _ h]
  exact Memory.read_writeBytes_at (h.trans_eq (codeDigits_length _).symm)

/-- Outside `EXP` a truncation leaves what it wrote to `OBUF`. -/
theorem State.truncate_read_outside_exp (s : State) (d : List Byte) {a : Nat} (h : ¬(0x100 ≤ a ∧ a < 0x106)) :
    (s.truncate d).mem.read a = (s.mem.writeBytes obufBase (codeDigits (codeOf (truncValue d)))).read a := by
  rw [State.truncate_eq]
  exact Memory.writeBytes_sameOutside _ _ _ a (by rwa [codeDigits_length])

theorem State.truncate_read_obuf (s : State) (d : List Byte) {k : Nat} (h : k < 6) :
    (s.truncate d).mem.read (0x2000 + k) = some (digitByte (codeOf (truncValue d)) k) := by
  rw [s.truncate_read_outside_exp d (by omega), ← codeDigits_getElem? _ h]
  exact Memory.read_writeBytes_at (h.trans_eq (codeDigits_length _).symm)

theorem State.truncate_read_other (s : State) (d : List Byte) {a : Nat} (hobuf : ¬(0x2000 ≤ a ∧ a < 0x2006))
    (hexp : ¬(0x100 ≤ a ∧ a < 0x106)) : (s.truncate d).mem.read a = s.mem.read a := by
  rw [s.truncate_read_outside_exp d hexp]
  exact Memory.writeBytes_sameOutside _ _ _ a (by rwa [codeDigits_length])

/-! ### `HOTPTRUNC` (R132) -/

/-- The digest of a state whose `IBUF` holds 20 bytes. -/
theorem State.digest_of_holds {s : State} {d : List Byte} (hlen : d.length = 20) (hold : s.Holds 0x1000 d) :
    s.digest = .ok d :=
  (s.mem.readBytes_ok_iff _ _ _).mpr ⟨hlen, hold⟩

theorem exec_hotptrunc_of_badLength {s : State} (h : s.ilen.toNat ≠ 20) :
    exec .hotptrunc s = .next (s.blockError .badLength 0) := by
  rw [exec, execHotptrunc, State.inputLen, if_neg h]

theorem exec_hotptrunc_of_holds {s : State} {d : List Byte} (hilen : s.ilen = 20) (hlen : d.length = 20)
    (hold : s.Holds 0x1000 d) : exec .hotptrunc s = .next ((s.truncate d).complete 6) := by
  have hin : s.inputLen = 20 := by rw [State.inputLen, hilen]; rfl
  rw [exec, execHotptrunc, if_pos hin, State.digest_of_holds hlen hold, onBytes]

/-- Settles O36: the offset, the value and the digits by their laws, and the buffers by what a truncation writes. -/
theorem hotptruncComputesCode : Obligations.HotptruncComputesCode := by
  refine ⟨by decide, fun s h => exec_hotptrunc_of_badLength h, fun s d hilen hlen hold o p ho hp => ?_⟩
  obtain rfl : o = truncOffset d := ho.trans (truncOffset_eq_mod d).symm
  obtain rfl : p = (truncValue d).toNat := hp.trans (truncValue_toNat d).symm
  have hoffset := truncOffset_le d
  have hvalue := (truncValue d).isLt
  have hcode := codeOf_lt (truncValue d)
  rw [codeOf] at hcode
  refine ⟨hoffset, by omega, by omega, by omega, (s.truncate d).mem, ?_, fun k hk => ?_,
    fun a => s.truncate_read_other d⟩
  · rw [exec_hotptrunc_of_holds hilen hlen hold, BitVec.ofNat_toNat, BitVec.setWidth_eq]
    simp only [State.complete_eq_finish, State.finish_eq, State.truncate_eq, codeOf]
    rfl
  · have hdigit := digitByte_toNat (codeOf (truncValue d)) k
    exact ⟨_, s.truncate_read_obuf d hk, s.truncate_read_exp d hk, hdigit, by omega, by omega⟩

end Sys2Proof.Machine

/-! Proofs of the family 42_compare.md: the comparator of `CTCMP`. -/

namespace Sys2Proof.Machine

/-! ### The codes that a compare reads (R42, R43) -/

theorem State.expectedCode_of_holds {s : State} {e : List Byte} (hlen : e.length = 6) (hold : s.Holds 0x100 e) :
    s.expectedCode = .ok e :=
  (s.mem.readBytes_ok_iff _ _ _).mpr ⟨hlen, hold⟩

theorem State.candidateCode_of_holds {s : State} {c : List Byte} (hlen : c.length = 6)
    (hold : s.Holds 0x108 c) : s.candidateCode = .ok c :=
  (s.mem.readBytes_ok_iff _ _ _).mpr ⟨hlen, hold⟩

/-- A byte sequence that was read has no byte without a value. -/
theorem Memory.read_ne_none_of_readBytes {m : Memory} {a n i : Nat} {vs : List Byte}
    (h : m.readBytes a n = .ok vs) (hi : i < n) : m.read (a + i) ≠ none := by
  obtain ⟨hlen, hread⟩ := (m.readBytes_ok_iff a n vs).mp h
  rw [hread i (hi.trans_eq hlen.symm)]
  exact Option.some_ne_none _

/-! ### The compare (R150, R151) -/

/-- The accumulated differences decide the equality of two codes of one length. -/
theorem codesEqual_eq_decide {e c : List Byte} (h : e.length = c.length) : codesEqual e c = decide (e = c) :=
  Bool.eq_iff_iff.mpr ((codesEqual_iff h).trans decide_eq_true_iff.symm)

theorem State.lenOk_iff (s : State) : s.lenOk = true ↔ s.candlen = 6 := beq_iff_eq

/-- With a wrong length no byte of the codes is read. -/
theorem State.compare_of_wrong_length {s : State} (n : Nat) (h : s.candlen ≠ 6) :
    s.compare n = .next (s.finish n false true) := by
  rw [State.compare, if_neg (mt s.lenOk_iff.mp h)]

/-- With length 6 the compare stops at a missing byte of `EXP`, then at one of `CAND`, and otherwise completes. -/
theorem State.compare_cases {s : State} (n : Nat) (h : s.candlen = 6) :
    (∃ f, s.expectedCode = .error f ∧ s.compare n = .fault f) ∨
    (∃ e f, s.expectedCode = .ok e ∧ s.candidateCode = .error f ∧ s.compare n = .fault f) ∨
    ∃ e c, s.expectedCode = .ok e ∧ s.candidateCode = .ok c ∧
      s.compare n = .next (s.finish n (codesEqual e c) false) := by
  rw [State.compare, if_pos (s.lenOk_iff.mpr h)]
  cases hexp : s.expectedCode with
  | error f => exact .inl ⟨f, rfl, rfl⟩
  | ok e =>
    cases hcand : s.candidateCode with
    | error f => exact .inr (.inl ⟨e, f, rfl, rfl, rfl⟩)
    | ok c => exact .inr (.inr ⟨e, c, rfl, rfl, rfl⟩)

/-- With length 6 and two codes that have values, the compare reports whether they are equal. -/
theorem State.compare_of_holds {s : State} {e c : List Byte} (n : Nat) (h : s.candlen = 6) (he : e.length = 6)
    (hc : c.length = 6) (hexp : s.Holds 0x100 e) (hcand : s.Holds 0x108 c) :
    s.compare n = .next (s.finish n (decide (e = c)) false) := by
  rw [State.compare, if_pos (s.lenOk_iff.mpr h), State.expectedCode_of_holds he hexp,
    State.candidateCode_of_holds hc hcand, onBytes, onBytes, codesEqual_eq_decide (he.trans hc.symm)]

/-- With length 6 and a byte of the codes that has no value, the compare stops at such a byte. -/
theorem State.compare_of_missing_byte {s : State} {k : Nat} (n : Nat) (h : s.candlen = 6) (hk : k < 6)
    (hnone : s.expAt k = none ∨ s.candAt k = none) :
    ∃ a, s.compare n = .fault (.unwrittenRead a) ∧ s.mem.read a = none ∧
      ((0x100 ≤ a ∧ a < 0x106) ∨ (0x108 ≤ a ∧ a < 0x10E)) := by
  obtain ⟨f, hexp, hstop⟩ | ⟨e, f, -, hcand, hstop⟩ | ⟨e, c, hexp, hcand, -⟩ := State.compare_cases n h
  · obtain ⟨i, hi, hread, -, rfl⟩ := Memory.readBytes_error hexp
    exact ⟨_, hstop, hread, .inl ⟨Nat.le_add_right _ _, Nat.add_lt_add_left hi _⟩⟩
  · obtain ⟨i, hi, hread, -, rfl⟩ := Memory.readBytes_error hcand
    exact ⟨_, hstop, hread, .inr ⟨Nat.le_add_right _ _, Nat.add_lt_add_left hi _⟩⟩
  · obtain hno | hno := hnone
    · exact absurd hno (Memory.read_ne_none_of_readBytes hexp hk)
    · exact absurd hno (Memory.read_ne_none_of_readBytes hcand hk)

/-! ### `CTCMP` (R150) -/

theorem exec_ctcmp (s : State) : exec .ctcmp s = s.compare 0 := rfl

/-- Settles O38: the compare on two codes that have values, with a wrong length, and with a byte missing. -/
theorem ctcmpComparesCodes : Obligations.CtcmpComparesCodes :=
  ⟨by decide, fun _ _ _ hlen he hc => State.compare_of_holds 0 hlen he hc,
    fun _ => State.compare_of_wrong_length 0, fun _ _ => State.compare_of_missing_byte 0⟩

end Sys2Proof.Machine

/-! Proofs of the family 43_control.md: `NOP`, `ZEROIZE` and the illegal command. -/

namespace Sys2Proof.Machine

/-! ### What every command and every step without a reset keeps (R35) -/

/-- `t` is a later state of the machine of `s`: the parameters and the script are those of `s`, and every byte that
had a value in `s` has one in `t`. -/
structure State.Extends (s t : State) : Prop where
  cfg : t.cfg = s.cfg
  script : t.script = s.script
  written : ∀ a, (s.mem.read a).isSome = true → (t.mem.read a).isSome = true

namespace State.Extends

theorem refl (s : State) : s.Extends s := ⟨rfl, rfl, fun _ => id⟩

theorem trans {s t u : State} (hst : s.Extends t) (htu : t.Extends u) : s.Extends u :=
  ⟨htu.cfg.trans hst.cfg, htu.script.trans hst.script, fun a h => htu.written a (hst.written a h)⟩

theorem of_mem_eq {s t : State} (hc : t.cfg = s.cfg) (hs : t.script = s.script) (hm : t.mem = s.mem) :
    s.Extends t :=
  ⟨hc, hs, fun a h => by rwa [hm]⟩

theorem finish {s t : State} (h : s.Extends t) (n : Nat) (m l : Bool) : s.Extends (t.finish n m l) :=
  h.trans (of_mem_eq rfl rfl rfl)

theorem blockError {s t : State} (h : s.Extends t) (c : ErrCode) (p : Nat) : s.Extends (t.blockError c p) :=
  h.trans (of_mem_eq rfl rfl rfl)

theorem goto {s t : State} (h : s.Extends t) (line : Nat) : s.Extends (t.goto line) :=
  h.trans (of_mem_eq rfl rfl rfl)

theorem allWritten {s t : State} (h : s.Extends t) (hs : s.AllWritten) : t.AllWritten :=
  fun a ha => h.written a (hs a (h.cfg ▸ ha))

end State.Extends

theorem Memory.write_keeps_values (m : Memory) (b : Nat) (v : Byte) {a : Nat} (h : (m.read a).isSome = true) :
    ((m.write b v).read a).isSome = true := by
  rw [Memory.read_write]
  split
  · rfl
  · exact h

theorem Memory.writeBytes_keeps_values (m : Memory) (b : Nat) (vs : List Byte) {a : Nat}
    (h : (m.read a).isSome = true) : ((m.writeBytes b vs).read a).isSome = true := by
  induction vs generalizing b with
  | nil => exact h
  | cons v vs ih => exact Memory.write_keeps_values _ b v (ih (b + 1))

theorem State.extends_writeAt (s : State) (b : Nat) (vs : List Byte) : s.Extends (s.writeAt b vs) :=
  ⟨rfl, rfl, fun _ => s.mem.writeBytes_keeps_values b vs⟩

theorem State.extends_drawBytes (s : State) (b k : Nat) : s.Extends (s.drawBytes b k) :=
  ⟨rfl, rfl, fun _ => s.mem.writeBytes_keeps_values b _⟩

theorem State.extends_truncate (s : State) (d : List Byte) : s.Extends (s.truncate d) :=
  ⟨s.truncate_cfg d, s.truncate_script d, fun _ h => by
    rw [State.truncate_mem]
    exact Memory.writeBytes_keeps_values _ _ _ (Memory.writeBytes_keeps_values _ _ _ h)⟩

theorem State.extends_zeroBuffers (s : State) : s.Extends s.zeroBuffers :=
  (((s.extends_writeAt obufBase _).trans (State.extends_writeAt _ ibufBase _)).trans
    (State.extends_writeAt _ candBase _)).trans (State.extends_writeAt _ expBase _)

theorem State.extends_zeroRegisters (s : State) : s.Extends s.zeroRegisters := .of_mem_eq rfl rfl rfl

theorem State.extends_decodeText (s : State) (text : List Byte) : s.Extends (s.decodeText text) := by
  obtain ⟨i, -, -, ht⟩ | ⟨-, ht⟩ := s.decodeText_cases text <;> rw [ht]
  · exact (s.extends_drawBytes _ _).blockError _ _
  · exact (s.extends_writeAt _ _).finish _ _ _

theorem State.compare_extends {s t : State} {n : Nat} (h : s.compare n = .next t) : s.Extends t := by
  obtain ⟨-, rfl⟩ | ⟨-, e, c, -, -, rfl⟩ := State.compare_next h <;> exact (State.Extends.refl s).finish _ _ _

/-- No command takes a value from a byte. -/
theorem exec_extends {i : Instr} {s t : State} (h : exec i s = .next t) : s.Extends t := by
  cases i with
  | nop => cases h; exact (State.Extends.refl s).finish _ _ _
  | ctrser => cases h; exact (s.extends_writeAt _ _).finish _ _ _
  | zeroize =>
    cases h
    exact (s.extends_zeroBuffers.trans (State.extends_zeroRegisters _)).finish _ _ _
  | illegal w => cases h; exact (State.Extends.refl s).blockError _ _
  | b32enc =>
    obtain ⟨-, rfl⟩ | ⟨-, bs, -, -, rfl⟩ := execB32enc_next h
    · exact (State.Extends.refl s).blockError _ _
    · exact (s.extends_writeAt _ _).finish _ _ _
  | b32dec =>
    obtain ⟨-, rfl⟩ | ⟨-, text, -, -, rfl⟩ := execB32dec_next h
    · exact (State.Extends.refl s).blockError _ _
    · exact s.extends_decodeText text
  | hotptrunc =>
    obtain ⟨-, rfl⟩ | ⟨-, d, -, -, rfl⟩ := execHotptrunc_next h
    · exact (State.Extends.refl s).blockError _ _
    · exact (s.extends_truncate d).finish _ _ _
  | ctcmp => exact State.compare_extends h
  | trunccmp =>
    obtain ⟨-, rfl⟩ | ⟨-, d, -, -, h⟩ := execTrunccmp_next h
    · exact (State.Extends.refl s).blockError _ _
    · exact (s.extends_truncate d).trans (State.compare_extends h)

theorem State.extends_busRead (s : State) (g : Target) : s.Extends (s.busRead g) := by
  obtain ⟨r, d, h, -⟩ := s.busRead_shape g
  rw [h]
  exact .of_mem_eq rfl rfl rfl

theorem State.extends_busWrite (s : State) (v : Word) (g : Target) : s.Extends (s.busWrite v g) := by
  cases hb : s.busy with
  | true =>
    obtain ⟨st, ie, h, -⟩ := State.busWrite_busy hb v g
    rw [h]
    exact .of_mem_eq rfl rfl rfl
  | false =>
    obtain h | ⟨b, a, x, -, h⟩ | ⟨st, ie, il, lo, hi, cl, h, -⟩ := State.busWrite_idle hb v g <;> rw [h]
    · exact .of_mem_eq rfl rfl rfl
    · exact ⟨rfl, rfl, fun _ => s.mem.write_keeps_values a x⟩
    · exact .of_mem_eq rfl rfl rfl

/-- Only a reset takes a value from a byte (R35). -/
theorem State.hostStep_extends {s t : State} (hr : s.nextOp ≠ some .reset) (h : s.hostStep = .next t) :
    s.Extends t := by
  have htick : s.Extends s.tick := .of_mem_eq rfl rfl rfl
  obtain ⟨-, rfl⟩ | ⟨-, rfl⟩ | ⟨off, w, g, -, -, rfl⟩ | ⟨off, w, v, g, -, -, rfl⟩ |
    ⟨l, off, b, g, -, -, rfl⟩ | ⟨ho, -⟩ := State.hostStep_next h
  · exact htick
  · exact htick.goto _
  · exact (htick.trans (State.extends_busRead _ g)).goto _
  · exact (htick.trans (State.extends_busWrite _ v g)).goto _
  · exact (htick.trans (State.extends_busRead _ g)).goto _
  · exact absurd ho hr

theorem step_extends {s t : State} (hr : s.nextOp ≠ some .reset) (h : step s = .next t) : s.Extends t := by
  obtain ⟨w, -, hs⟩ | ⟨-, hs⟩ := step_cases s <;> rw [hs] at h
  · exact exec_extends h
  · exact State.hostStep_extends hr h

/-! ### Runs without a reset -/

/-- A run of `k + 1` steps that does not stop is a step and a run of `k` steps. -/
theorem core_run_succ_next {s u : State} {k : Nat} (h : Sys2Proof.core.run (k + 1) s = .next u) :
    ∃ t, step s = .next t ∧ Sys2Proof.core.run k t = .next u := by
  cases hs : step s with
  | next t => exact ⟨t, rfl, (core_run_next hs).symm.trans h⟩
  | fault f =>
    have hc : Sys2Proof.core.step s = .fault f := hs
    simp [Host.Core.run, hc] at h
  | refused r =>
    have hc : Sys2Proof.core.step s = .refused r := hs
    simp [Host.Core.run, hc] at h

theorem State.nextOp_ne_reset {s : State} (h : HostOp.reset ∉ s.script) : s.nextOp ≠ some .reset :=
  fun ho => h (List.mem_of_getElem? ho)

/-- A run under a script without a reset extends the state it begins in. -/
theorem core_run_extends {s u : State} {k : Nat} (hs : HostOp.reset ∉ s.script)
    (h : Sys2Proof.core.run k s = .next u) : s.Extends u := by
  induction k generalizing s with
  | zero =>
    cases h
    exact .refl _
  | succ k ih =>
    obtain ⟨t, hstep, hrun⟩ := core_run_succ_next h
    have hst := step_extends (State.nextOp_ne_reset hs) hstep
    exact hst.trans (ih (hst.script ▸ hs) hrun)

/-! ### Commands that complete -/

theorem exec_b32dec_of_badLength {s : State} (h : s.cfg.ibufSize < s.ilen.toNat) :
    exec .b32dec s = .next (s.blockError .badLength 0) := by
  rw [exec, execB32dec, State.inputLen, if_pos h]

theorem exec_trunccmp_of_badLength {s : State} (h : s.ilen.toNat ≠ 20) :
    exec .trunccmp s = .next (s.blockError .badLength 0) := by
  rw [exec, execTrunccmp, State.inputLen, if_neg h]

theorem exec_trunccmp_of_holds {s : State} {d : List Byte} (hilen : s.ilen = 20) (hlen : d.length = 20)
    (hold : s.Holds 0x1000 d) : exec .trunccmp s = (s.truncate d).compare 6 := by
  have hin : s.inputLen = 20 := by rw [State.inputLen, hilen]; rfl
  rw [exec, execTrunccmp, if_pos hin, State.digest_of_holds hlen hold, onBytes]

/-- With `ILEN` and `CANDLEN` 0 no command reads a buffer byte. -/
theorem exec_completes_of_lengths_zero {s : State} (hilen : s.ilen = 0) (hcand : s.candlen = 0) (i : Instr) :
    ∃ u, exec i s = .next u := by
  have hin : s.ilen.toNat = 0 := by rw [hilen]; rfl
  have hempty : s.Holds 0x1000 [] := fun _ h => absurd h (Nat.not_lt_zero _)
  cases i with
  | nop | ctrser | zeroize | illegal => exact ⟨_, rfl⟩
  | b32enc => exact ⟨_, exec_b32enc_of_holds (bs := []) hin (Nat.zero_le _) hempty⟩
  | b32dec => exact ⟨_, exec_b32dec_of_holds (text := []) hin (Nat.zero_le _) hempty⟩
  | hotptrunc => exact ⟨_, exec_hotptrunc_of_badLength (by omega)⟩
  | trunccmp => exact ⟨_, exec_trunccmp_of_badLength (by omega)⟩
  | ctcmp => exact ⟨_, State.compare_of_wrong_length 0 (by rw [hcand]; decide)⟩

/-- Where every buffer byte has a value, a range of buffer bytes holds a byte sequence. -/
theorem State.AllWritten.holds {s : State} (hw : s.AllWritten) {base n : Nat}
    (hrange : ∀ i, i < n → isBufferByte s.cfg (base + i)) : ∃ bs : List Byte, bs.length = n ∧ s.Holds base bs := by
  obtain ⟨bs, hread, hlen⟩ := Memory.readBytes_of_written fun i hi => hw _ (hrange i hi)
  exact ⟨bs, hlen, ((s.mem.readBytes_ok_iff base n bs).mp hread).2⟩

theorem State.AllWritten.ibuf_holds {s : State} (hw : s.AllWritten) {n : Nat} (hn : n ≤ s.cfg.ibufSize) :
    ∃ bs : List Byte, bs.length = n ∧ s.Holds 0x1000 bs :=
  hw.holds fun _ _ => .inr (.inr (.inl (by omega)))

theorem State.AllWritten.compare_completes {s : State} (hw : s.AllWritten) (n : Nat) :
    ∃ u, s.compare n = .next u := by
  by_cases hlen : s.candlen = 6
  · obtain ⟨e, he, hexp⟩ := hw.holds (base := 0x100) (n := 6) fun _ _ => .inl (by omega)
    obtain ⟨c, hc, hcand⟩ := hw.holds (base := 0x108) (n := 6) fun _ _ => .inr (.inl (by omega))
    exact ⟨_, State.compare_of_holds n hlen he hc hexp hcand⟩
  · exact ⟨_, State.compare_of_wrong_length n hlen⟩

/-- With allowed parameters (R6) every command completes where every buffer byte has a value. -/
theorem State.AllWritten.exec_completes {s : State} (hw : s.AllWritten) (hok : s.cfg.Ok) (i : Instr) :
    ∃ u, exec i s = .next u := by
  obtain ⟨hdigest, -⟩ := hok
  cases i with
  | nop | ctrser | zeroize | illegal => exact ⟨_, rfl⟩
  | b32enc =>
    by_cases hbad : s.cfg.ibufSize < s.ilen.toNat
    · exact ⟨_, exec_b32enc_of_badLength hbad⟩
    · obtain ⟨bs, hlen, hold⟩ := hw.ibuf_holds (not_lt.mp hbad)
      exact ⟨_, exec_b32enc_of_holds hlen.symm (by omega) hold⟩
  | b32dec =>
    by_cases hbad : s.cfg.ibufSize < s.ilen.toNat
    · exact ⟨_, exec_b32dec_of_badLength hbad⟩
    · obtain ⟨text, hlen, hold⟩ := hw.ibuf_holds (not_lt.mp hbad)
      exact ⟨_, exec_b32dec_of_holds hlen.symm (by omega) hold⟩
  | hotptrunc =>
    by_cases hilen : s.ilen.toNat = 20
    · obtain ⟨d, hlen, hold⟩ := hw.ibuf_holds hdigest
      exact ⟨_, exec_hotptrunc_of_holds (BitVec.eq_of_toNat_eq hilen) hlen hold⟩
    · exact ⟨_, exec_hotptrunc_of_badLength hilen⟩
  | ctcmp => exact hw.compare_completes 0
  | trunccmp =>
    by_cases hilen : s.ilen.toNat = 20
    · obtain ⟨d, hlen, hold⟩ := hw.ibuf_holds hdigest
      rw [exec_trunccmp_of_holds (BitVec.eq_of_toNat_eq hilen) hlen hold]
      exact ((s.extends_truncate d).allWritten hw).compare_completes 6
    · exact ⟨_, exec_trunccmp_of_badLength hilen⟩

/-! ### `ZEROIZE` (R171) -/

theorem Memory.read_writeBytes_replicate (m : Memory) (b n : Nat) (v : Byte) (a : Nat) :
    (m.writeBytes b (List.replicate n v)).read a = if b ≤ a ∧ a < b + n then some v else m.read a := by
  rw [Memory.read_writeBytes, List.length_replicate]
  split
  · exact List.getElem?_replicate_of_lt (by omega)
  · rfl

/-- Exactly the buffer bytes become 0. -/
theorem State.zeroBuffers_read (s : State) (a : Nat) :
    s.zeroBuffers.mem.read a = if isBufferByte s.cfg a then some 0 else s.mem.read a := by
  simp only [State.zeroBuffers_mem, Memory.read_writeBytes_replicate, ← ite_or, isBufferByte, expBase, candBase,
    ibufBase, obufBase, Nat.reduceAdd]

theorem State.zeroBuffers_allWritten (s : State) : s.zeroBuffers.AllWritten := by
  intro a ha
  rw [s.zeroBuffers_read, if_pos (s.zeroBuffers_cfg ▸ ha)]
  rfl

/-- Settles O23: after `ZEROIZE` no length asks for a byte, and in a run from there every buffer byte keeps a value. -/
theorem zeroizeErasesEverything : Obligations.ZeroizeErasesEverything := by
  refine ⟨by decide, fun s => ⟨s.zeroBuffers.mem, execZeroize_eq s, fun a ha => ?_, fun a ha => ?_,
    fun t i ht => ?_, fun t u i k hok hscript ht hrun => ?_⟩⟩
  · rw [s.zeroBuffers_read, if_pos ha]
  · rw [s.zeroBuffers_read, if_neg ha]
  · cases ht
    exact exec_completes_of_lengths_zero rfl rfl i
  · have hst := exec_extends ht
    have htu := core_run_extends (hst.script ▸ hscript) hrun
    have hzero : t.AllWritten := by
      cases ht
      exact ((State.extends_zeroRegisters _).finish 0 false false).allWritten s.zeroBuffers_allWritten
    exact (htu.allWritten hzero).exec_completes ((hst.trans htu).cfg ▸ hok) i

/-! ### `NOP` (R170) and the illegal command (R172) -/

/-- `STATUS` as an idle block reads after a completion without error and without a compare's result. -/
theorem Status.success_word (haz : Bool) :
    (Status.success haz false false).word false = if haz then 0x0000000A else 0x00000002 := by
  revert haz
  decide

/-- `STATUS` as an idle block reads after an illegal command, where `HAZ` is clear. -/
theorem Status.failure_illegalCommand_word : (Status.failure false .illegalCommand).word false = 0x00000206 := by
  decide

theorem exec_nop (s : State) : exec .nop s = .next (s.finish 0 false false) := rfl

/-- Settles O22: the completion without error, read through `STATUS` and `IRQ`. -/
theorem nopCompletesWithoutEffect : Obligations.NopCompletesWithoutEffect := by
  refine ⟨by decide, fun s => ⟨exec_nop s, fun t ht => ?_⟩⟩
  cases ht
  exact ⟨Status.success_word s.status.haz, Bool.true_and _⟩

theorem exec_illegal (w : Word) (s : State) : exec (.illegal w) s = .next (s.blockError .illegalCommand 0) := rfl

/-- Settles O24: the error completion, read through `STATUS`. -/
theorem illegalCommandIsReported : Obligations.IllegalCommandIsReported := by
  refine fun s w => ⟨exec_illegal w s, by decide, fun t ht hhaz => ?_⟩
  cases ht
  change (Status.failure s.status.haz .illegalCommand).word false = 0x00000206
  rw [hhaz, Status.failure_illegalCommand_word]

end Sys2Proof.Machine

/-! Proofs of the family 60_exceptions.md: the acceptance of a command, and the host's writes while one runs. -/

namespace Sys2Proof.Machine

/-! ### Host slots while idle and while a command runs (R180, R182) -/

theorem State.completing_of_idle {s : State} (h : s.latch = none) : s.completing = none := by
  simp only [State.completing, h]

theorem State.completing_of_running {s : State} {w : Word} {k : Nat}
    (h : s.latch = some { word := w, wait := k + 1 }) : s.completing = none := by
  simp only [State.completing, h, Nat.succ_ne_zero, false_and, if_false]

theorem State.tick_of_running {s : State} {w : Word} {k : Nat}
    (h : s.latch = some { word := w, wait := k + 1 }) :
    s.tick = { s with latch := some { word := w, wait := k } } := by
  simp only [State.tick, h, Option.map_some, Nat.add_sub_cancel]

/-- A step at which the host makes a write that the address map admits. -/
theorem step_write {s : State} {off : Offset} {width : Nat} {v : Word} {g : Target} (hc : s.completing = none)
    (ho : s.nextOp = some (.write off width v)) (hg : accessTarget s.cfg off width = some g) :
    step s = .next ((s.tick.busWrite v g).goto (s.hpc + 1)) := by
  rw [step_of_completing_none hc]
  simp only [State.hostStep, ho, hg]

theorem step_write_idle {s : State} {off : Offset} {width : Nat} {v : Word} {g : Target} (hl : s.latch = none)
    (ho : s.nextOp = some (.write off width v)) (hg : accessTarget s.cfg off width = some g) :
    step s = .next ((s.busWrite v g).goto (s.hpc + 1)) := by
  rw [step_write (State.completing_of_idle hl) ho hg, State.tick_of_idle hl]

theorem step_write_running {s : State} {w : Word} {k : Nat} {off : Offset} {width : Nat} {v : Word} {g : Target}
    (hl : s.latch = some { word := w, wait := k + 1 }) (ho : s.nextOp = some (.write off width v))
    (hg : accessTarget s.cfg off width = some g) :
    step s = .next (({ s with latch := some { word := w, wait := k } }.busWrite v g).goto (s.hpc + 1)) := by
  rw [step_write (State.completing_of_running hl) ho hg, State.tick_of_running hl]

/-- While a command runs no host slot but a reset changes more than `STATUS`, `CTRL.IE` and the model's own fields;
only the running command's cycle passes. -/
theorem State.hostStep_busy_shape {s t : State} (hb : s.busy = true) (hr : s.nextOp ≠ some .reset)
    (h : s.hostStep = .next t) :
    ∃ st ie n r d, t = { s.tick with status := st, ctrlIe := ie, hpc := n, resp := r, draws := d } := by
  obtain ⟨-, rfl⟩ | ⟨-, rfl⟩ | ⟨off, w, g, -, -, rfl⟩ | ⟨off, w, v, g, -, -, rfl⟩ |
    ⟨l, off, b, g, -, -, rfl⟩ | ⟨ho, -⟩ := State.hostStep_next h
  case inr.inr.inr.inr.inr => exact absurd ho hr
  case inl | inr.inl => exact ⟨_, _, _, _, _, rfl⟩
  case inr.inr.inr.inl =>
    obtain ⟨st, ie, hw, -⟩ := State.busWrite_busy (s.tick_busy.trans hb) v g
    exact ⟨st, ie, _, _, _, by rw [hw]; rfl⟩
  all_goals
    obtain ⟨r, d, hread, -⟩ := s.tick.busRead_shape g
    exact ⟨_, _, _, r, d, by rw [hread]; rfl⟩

/-- An idle write to `CMD` is the acceptance of the word written. -/
theorem step_write_cmd_idle {s : State} {v : Word} (hl : s.latch = none)
    (ho : s.nextOp = some (.write 0x008 4 v)) :
    step s = .next (((s.accept v).respond .ack).goto (s.hpc + 1)) := by
  rw [step_write_idle (g := .reg .cmd) hl ho rfl, State.busWrite, State.writeReg,
    State.inputWrite_idle (State.busy_of_none hl)]

/-- Settles O8: the idle `CMD` write is the acceptance, and the slots of a running command have the shape above. -/
theorem commandWriteIsAccepted : Obligations.CommandWriteIsAccepted := by
  refine ⟨fun s v hl ho => ⟨_, step_write_cmd_idle hl ho⟩, fun s t w k hl hr ht => ?_⟩
  rw [step_of_completing_none (State.completing_of_running hl)] at ht
  obtain ⟨st, ie, n, r, d, rfl⟩ := State.hostStep_busy_shape (State.busy_of_some hl) hr ht
  rw [State.tick_of_running hl]
  exact ⟨rfl, rfl, rfl, rfl, rfl, rfl⟩

/-! ### Writes that a running command drops (R181, R191) -/

theorem State.writeReg_dropped {s : State} {r : Reg} (hb : s.busy = true) (hd : r.droppedWhileBusy = true)
    (v : Word) : s.writeReg v r = s.drop := by
  obtain rfl | rfl | rfl | rfl | rfl := of_decide_eq_true hd <;> exact State.inputWrite_busy hb

theorem State.writeByte_dropped {s : State} {b : Buffer} (hb : s.busy = true) (hd : b ≠ .obuf) (v : Byte)
    (a : Nat) : s.writeByte v b a = s.drop := by
  cases b with
  | obuf => exact absurd rfl hd
  | ibuf | expected | candidate => exact State.inputWrite_busy hb

theorem State.busWrite_dropped {s : State} {g : Target} (hb : s.busy = true) (hd : g.droppedWhileBusy = true)
    (v : Word) : s.busWrite v g = s.drop.respond .ack := by
  cases g with
  | reg r => rw [State.busWrite, State.writeReg_dropped hb hd]
  | byte b a => rw [State.busWrite, State.writeByte_dropped hb (of_decide_eq_true hd)]
  | reservedByte => cases hd

/-- The address map admits every write that a busy block drops. -/
theorem accessTarget_of_droppedWhileBusy {p : Config.Params} {off : Offset} {w : Nat}
    (h : DroppedWhileBusy p off w) : ∃ g, accessTarget p off w = some g ∧ g.droppedWhileBusy = true := by
  have hadm : Admitted p off w := by
    obtain ⟨rfl, rfl | rfl | rfl | rfl | rfl⟩ | ⟨hw, hrange⟩ := h
    case inr => unfold Admitted; omega
    all_goals exact .inl (by decide)
  obtain ⟨g, hg⟩ := Option.ne_none_iff_exists'.mp fun hnone => (accessTarget_none_iff p off w).mp hnone hadm
  exact ⟨g, hg, (accessTarget_droppedWhileBusy_iff hg).mpr h⟩

/-- A dropped write sets `HAZ`, and the running command goes on. -/
theorem step_write_dropped {s : State} {w : Word} {k : Nat} {off : Offset} {width : Nat} {v : Word}
    (hl : s.latch = some { word := w, wait := k + 1 }) (ho : s.nextOp = some (.write off width v))
    (hd : DroppedWhileBusy s.cfg off width) :
    step s = .next { s with
      latch := some { word := w, wait := k }
      status := { s.status with haz := true }
      hpc := s.hpc + 1
      resp := .ack } := by
  obtain ⟨g, hg, hdrop⟩ := accessTarget_of_droppedWhileBusy hd
  rw [step_write_running hl ho hg, State.busWrite_dropped rfl hdrop]
  rfl

/-- Settles O9: `CMD` is one of the targets whose writes a busy block drops. -/
theorem busyCommandWriteIsDropped : Obligations.BusyCommandWriteIsDropped :=
  fun _ _ _ _ hl ho => step_write_dropped hl ho (.inl ⟨rfl, .inl rfl⟩)

/-! ### Writes to read-only state (R191) -/

/-- The targets of host writes that are ignored at all times: `ID`, the result registers and `OBUF`. -/
def Target.readOnly : Target → Bool
  | .reg r => decide (r = .id ∨ r = .olen ∨ r = .errpos ∨ r = .trunc ∨ r = .codeval)
  | .byte b _ => decide (b = .obuf)
  | .reservedByte => false

theorem State.busWrite_readOnly {g : Target} (h : g.readOnly = true) (s : State) (v : Word) :
    s.busWrite v g = s.respond .ack := by
  cases g with
  | reg r => obtain rfl | rfl | rfl | rfl | rfl := of_decide_eq_true h <;> rfl
  | byte b a => cases of_decide_eq_true h; rfl
  | reservedByte => cases h

/-- Where `IBUF` ends below `OBUF` (R6), the byte window at 0x2000 is `OBUF`. -/
theorem accessTarget_obuf {p : Config.Params} {off : Offset} (hp : p.ibufSize ≤ 4096)
    (hlo : 0x2000 ≤ off.toNat) (hhi : off.toNat < 0x2000 + p.obufSize) :
    accessTarget p off 1 = some (.byte .obuf off.toNat) := by
  rw [accessTarget, if_neg (by omega), if_pos rfl, byteTarget, if_neg (by omega), if_neg (by omega),
    if_neg (by omega), if_neg (by omega), if_pos ⟨hlo, hhi⟩]

/-- The offsets of `ID`, `OLEN`, `ERRPOS`, `TRUNC`, `CODEVAL` and `OBUF`. -/
theorem accessTarget_readOnly {p : Config.Params} {off : Offset} {w : Nat} (hp : p.ibufSize ≤ 4096)
    (h : (w = 4 ∧ (off = 0x000 ∨ off = 0x014 ∨ off = 0x018 ∨ off = 0x024 ∨ off = 0x028)) ∨
      (w = 1 ∧ 0x2000 ≤ off.toNat ∧ off.toNat < 0x2000 + p.obufSize)) :
    ∃ g, accessTarget p off w = some g ∧ g.readOnly = true := by
  obtain ⟨rfl, rfl | rfl | rfl | rfl | rfl⟩ | ⟨rfl, hlo, hhi⟩ := h
  case inr => exact ⟨_, accessTarget_obuf hp hlo hhi, rfl⟩
  all_goals exact ⟨_, rfl, rfl⟩

/-- Settles O10: dropped writes, the writes of `CTRL` and `STATUS`, and the ignored ones, each by its target. -/
theorem busyInputWritesAreDropped : Obligations.BusyInputWritesAreDropped := by
  intro s off width v hok ho
  obtain ⟨-, hibuf, -⟩ := hok
  refine ⟨fun w k hl => ⟨fun hin => ?_, ?_, ?_⟩, fun hro => ?_⟩
  · exact step_write_dropped hl ho
      (hin.imp (fun ⟨hw, hoff⟩ => ⟨hw, .inr hoff⟩) fun ⟨hw, hrange⟩ => ⟨hw, by omega⟩)
  · rintro rfl rfl
    exact step_write_running (g := .reg .ctrl) hl ho rfl
  · rintro rfl rfl
    exact step_write_running (g := .reg .status) hl ho rfl
  · obtain ⟨g, hg, hignored⟩ := accessTarget_readOnly hibuf hro
    refine ⟨fun hl => ?_, fun w k hl => ?_⟩
    · rw [step_write_idle hl ho hg, State.busWrite_readOnly hignored]
      rfl
    · rw [step_write_running hl ho hg, State.busWrite_readOnly hignored]
      rfl

end Sys2Proof.Machine

/-! Proofs of the family 70_reset_and_hazards.md: the reset and the state it leaves. -/

namespace Sys2Proof.Machine

/-! ### The reset input (R211, R212) -/

/-- R212: where the platform asserts reset no completion is the next event, not even a due one. -/
theorem State.completing_of_reset {s : State} (hr : s.nextOp = some .reset) : s.completing = none :=
  Option.eq_none_iff_forall_ne_some.mpr fun w hw => ((s.completing_some_iff w).mp hw).2 hr

/-- A step at which the platform asserts reset, whatever command is latched. -/
theorem step_reset {s : State} (hr : s.nextOp = some .reset) :
    step s = .next (s.applyReset.goto (s.hpc + 1)) := by
  rw [step_of_completing_none (State.completing_of_reset hr)]
  simp only [State.hostStep, hr]

/-- Settles O18: the reset wins over a due completion, and each field of the next state is that of the reset state. -/
theorem resetWinsAndClears : Obligations.ResetWinsAndClears :=
  fun s hr => ⟨_, step_reset hr, rfl, rfl, rfl, rfl, rfl, rfl, rfl, rfl, rfl, rfl, Memory.read_nil, rfl,
    State.resetWith_irq s.cfg, rfl⟩

end Sys2Proof.Machine

/-! Proofs of the family other, encoding: the decoder and the encoder are inverse to each other. -/

namespace Sys2Proof

/-! ### A command word and its fields (R80) -/

theorem rsvOf_append_opcOf (w : Word) : rsvOf w ++ opcOf w = w :=
  (BitVec.extractLsb'_append_extractLsb'_eq_extractLsb' (by decide)).trans BitVec.extractLsb'_eq_self

/-- Where no reserved bit is set, the opcode is the whole word. -/
theorem commandWord_opcOf {w : Word} (h : rsvOf w = 0) : commandWord (BitVec.ofNat 8 (opcOf w).toNat) = w := by
  rw [BitVec.ofNat_toNat, BitVec.setWidth_eq, commandWord, ← h, rsvOf_append_opcOf]

/-- Read as one number, an illegal word is 8 or more (R86). -/
theorem reserved_or_undefined_iff (w : Word) : (rsvOf w ≠ 0 ∨ 8 ≤ (opcOf w).toNat) ↔ 8 ≤ w.toNat := by
  rw [rsvOf_ne_zero_iff, opcOf_toNat]
  omega

theorem decode_of_ge {w : Word} (h : 8 ≤ w.toNat) : decode w = .illegal w :=
  (decode_eq_illegal_iff w w).mpr ⟨rfl, (reserved_or_undefined_iff w).mpr h⟩

/-! ### The decoder and the encoder (R81 to R86) -/

/-- Settles O1: the eight command words are closed, and an illegal word is 8 or more. -/
theorem encodeThenDecodeIsIdentity : Obligations.EncodeThenDecodeIsIdentity := by
  intro i hwf
  cases i with
  | illegal w => exact decode_of_ge (of_decide_eq_true hwf)
  | nop | b32enc | b32dec | ctrser | hotptrunc | ctcmp | trunccmp | zeroize => decide

theorem decode_wf (w : Word) : (decode w).wf = true := by
  cases hd : decode w with
  | illegal v =>
    obtain ⟨rfl, hbad⟩ := (decode_eq_illegal_iff w v).mp hd
    exact decide_eq_true ((reserved_or_undefined_iff v).mp hbad)
  | nop | b32enc | b32dec | ctrser | hotptrunc | ctcmp | trunccmp | zeroize => rfl

theorem encode_decode (w : Word) : encode (decode w) = w := by
  by_cases hr : rsvOf w = 0
  · have hw := commandWord_opcOf hr
    rw [decode, if_pos hr]
    split
    case h_9 => rfl
    all_goals
      rename_i hopc
      rw [hopc] at hw
      exact hw
  · rw [decode_of_rsvOf_ne_zero hr, encode]

/-- Settles O2: the decoder's image is well formed, and the word is its fields side by side. -/
theorem decodeThenEncodeIsIdentity : Obligations.DecodeThenEncodeIsIdentity :=
  fun w => ⟨decode_wf w, encode_decode w⟩

/-- Settles O3: the eight rows word by word, and the reserved row by its lower end. -/
theorem opcodeMapWords : Obligations.OpcodeMapWords :=
  ⟨by decide, by decide, by decide, by decide, by decide, by decide, by decide, by decide,
    fun _ hlow _ => decode_of_ge hlow⟩

end Sys2Proof

/-! Proofs of the family other, steps: the dispatch of a step, and the life of a latched command. -/

namespace Sys2Proof.Machine

/-! ### The dispatch of a step (R182, R212) -/

theorem step_of_due {s : State} {w : Word} (hl : s.latch = some { word := w, wait := 0 })
    (hr : s.nextOp ≠ some .reset) : step s = exec (decode w) s := by
  simp only [step, (s.completing_some_iff w).mpr ⟨hl, hr⟩]

/-- Settles O5: such a latch is a due completion. -/
theorem stepRunsDueCommand : Obligations.StepRunsDueCommand := fun _ _ => step_of_due

/-- Settles O6: neither an empty latch nor one with cycles left is a due completion. -/
theorem stepPerformsHostSlot : Obligations.StepPerformsHostSlot := by
  rintro s (hl | ⟨w, k, hl⟩)
  · exact step_of_completing_none (State.completing_of_idle hl)
  · exact step_of_completing_none (State.completing_of_running hl)

/-- From the line after the resets on, the script is what is left when its leading resets are dropped. -/
theorem State.drop_lineAfterResets (s : State) :
    s.script.drop s.lineAfterResets = (s.script.drop s.hpc).dropWhile fun o => decide (o = .reset) := by
  rw [State.lineAfterResets, ← List.drop_drop]
  generalize s.script.drop s.hpc = ops
  have h := List.drop_left (l₁ := ops.takeWhile fun o => decide (o = .reset))
    (l₂ := ops.dropWhile fun o => decide (o = .reset))
  rwa [List.takeWhile_append_dropWhile] at h

theorem State.dueCommand_nextOp_ne_reset (s : State) (v : Word) : (s.dueCommand v).nextOp ≠ some .reset := by
  intro (hr : s.script[s.lineAfterResets]? = some .reset)
  have hhead := List.head?_dropWhile_not (fun o : HostOp => decide (o = .reset)) (s.script.drop s.hpc)
  rw [← s.drop_lineAfterResets, List.head?_drop, hr] at hhead
  cases hhead

/-- Settles O7: the placed word is latched and due, and the host's line is no reset. -/
theorem placedWordRunsNext : Obligations.PlacedWordRunsNext :=
  fun s _ _ hbits => ⟨_, if_pos hbits, step_of_due rfl (s.dueCommand_nextOp_ne_reset _)⟩

/-! ### Runs of a host that does nothing more -/

theorem step_of_script_end {s : State} {w : Word} {k : Nat} (hl : s.latch = some { word := w, wait := k + 1 })
    (ho : s.nextOp = none) : step s = .next { s with latch := some { word := w, wait := k } } := by
  rw [step_of_completing_none (State.completing_of_running hl), ← State.tick_of_running hl]
  simp only [State.hostStep, ho]

/-- Settles O20, by induction on the remaining cycles: each but the last is one idle slot. -/
theorem acceptedCommandCompletes : Obligations.AcceptedCommandCompletes := by
  intro s w k ho hl
  induction k generalizing s with
  | zero =>
    have hs : { s with latch := some { word := w, wait := 0 } } = s := by rw [← hl]
    rw [hs, core_run_one]
    exact step_of_due hl (by rw [ho]; exact nofun)
  | succ k ih =>
    rw [core_run_next (step_of_script_end hl ho)]
    exact ih { s with latch := some { word := w, wait := k } } ho rfl

/-! ### The latency of an accepted command (R220) -/

theorem opcOf_eq_of_mod_eq {v v' : Word} (h : v.toNat % 2 ^ 8 = v'.toNat % 2 ^ 8) : opcOf v = opcOf v' := by
  apply BitVec.eq_of_toNat_eq
  rw [opcOf_toNat, opcOf_toNat, h]

/-- Settles O21: an acceptance latches the cycles of the opcode and of `ILEN`, and reads no other state. -/
theorem latencyDependsOnOpcodeAndLengthOnly : Obligations.LatencyDependsOnOpcodeAndLengthOnly := by
  intro s s' v v' hl hl' ho ho' hopc hilen
  refine ⟨_, _, _, _, step_write_cmd_idle hl ho, step_write_cmd_idle hl' ho', rfl, rfl, rfl, rfl, rfl, ?_⟩
  rw [opcOf_eq_of_mod_eq hopc, hilen]

end Sys2Proof.Machine

/-! Proofs of the family other, host accesses: what each read answers and what each idle write stores. -/

namespace Sys2Proof.Machine

/-! ### Host slots that read (R66) -/

theorem step_read {s : State} {off : Offset} {width : Nat} {g : Target} (hc : s.completing = none)
    (ho : s.nextOp = some (.read off width)) (hg : accessTarget s.cfg off width = some g) :
    step s = .next ((s.tick.busRead g).goto (s.hpc + 1)) := by
  rw [step_of_completing_none hc]
  simp only [State.hostStep, ho, hg]

theorem step_read_idle {s : State} {off : Offset} {width : Nat} {g : Target} (hl : s.latch = none)
    (ho : s.nextOp = some (.read off width)) (hg : accessTarget s.cfg off width = some g) :
    step s = .next ((s.busRead g).goto (s.hpc + 1)) := by
  rw [step_read (State.completing_of_idle hl) ho hg, State.tick_of_idle hl]

theorem step_read_running {s : State} {w : Word} {k : Nat} {off : Offset} {width : Nat} {g : Target}
    (hl : s.latch = some { word := w, wait := k + 1 }) (ho : s.nextOp = some (.read off width))
    (hg : accessTarget s.cfg off width = some g) :
    step s = .next (({ s with latch := some { word := w, wait := k } }.busRead g).goto (s.hpc + 1)) := by
  rw [step_read (State.completing_of_running hl) ho hg, State.tick_of_running hl]

theorem step_bit1 {s : State} {l : Nat} {off : Offset} {b : Nat} {g : Target} (hc : s.completing = none)
    (ho : s.nextOp = some (.bit1 l off b)) (hg : accessTarget s.cfg off 4 = some g) :
    step s = .next ((s.tick.busRead g).goto (if (s.tick.busRead g).resp.bitSet b then l else s.hpc + 1)) := by
  rw [step_of_completing_none hc]
  simp only [State.hostStep, ho, hg]

/-- Settles O16: the shape of a bus read, after the running command's cycle. -/
theorem readsHaveNoSideEffects : Obligations.ReadsHaveNoSideEffects := by
  intro s t off width hc ho ht
  cases hg : accessTarget s.cfg off width with
  | none =>
    have hadm := (accessTarget_none_iff s.cfg off width).mp hg
    rw [step_of_completing_none hc, State.hostStep_of_not_admitted ho rfl hadm] at ht
    cases ht
  | some g =>
    obtain ⟨r, d, hread, hd⟩ := s.tick.busRead_shape g
    rw [step_read hc ho hg, hread] at ht
    cases ht
    exact ⟨rfl, hd⟩

/-! ### Register reads (R22 to R39, R66) -/

/-- A register that is not drawn reads its true value at all times. -/
theorem State.busRead_reg_true {s : State} {r : Reg} (h : s.regDraw r = none) :
    s.busRead (.reg r) = s.respond (.word (s.regValue r)) := by
  cases hb : s.busy <;> simp only [State.busRead, State.readReg, hb, h]

theorem State.busRead_reg_idle {s : State} (h : s.busy = false) (r : Reg) :
    s.busRead (.reg r) = s.respond (.word (s.regValue r)) := by
  simp only [State.busRead, State.readReg, h]

theorem State.busRead_reg_drawn {s : State} {r : Reg} {v : Word} (hb : s.busy = true)
    (h : s.regDraw r = some v) : s.busRead (.reg r) = s.respondDrawn (.word v) := by
  simp only [State.busRead, State.readReg, hb, h]

theorem step_readReg_idle {s : State} {off : Offset} {r : Reg} {v : Word} (hl : s.latch = none)
    (ho : s.nextOp = some (.read off 4)) (hg : accessTarget s.cfg off 4 = some (.reg r))
    (hv : s.regValue r = v) : step s = .next { s with hpc := s.hpc + 1, resp := .word v } := by
  rw [step_read_idle hl ho hg, State.busRead_reg_idle (State.busy_of_none hl), hv]
  rfl

theorem step_readReg_true {s : State} {w : Word} {k : Nat} {off : Offset} {r : Reg} {v : Word}
    (hl : s.latch = some { word := w, wait := k + 1 }) (ho : s.nextOp = some (.read off 4))
    (hg : accessTarget s.cfg off 4 = some (.reg r))
    (hd : { s with latch := some { word := w, wait := k } }.regDraw r = none)
    (hv : { s with latch := some { word := w, wait := k } }.regValue r = v) :
    step s = .next { s with latch := some { word := w, wait := k }, hpc := s.hpc + 1, resp := .word v } := by
  rw [step_read_running hl ho hg, State.busRead_reg_true hd, hv]
  rfl

theorem step_readReg_drawn {s : State} {w : Word} {k : Nat} {off : Offset} {r : Reg} {v : Word}
    (hl : s.latch = some { word := w, wait := k + 1 }) (ho : s.nextOp = some (.read off 4))
    (hg : accessTarget s.cfg off 4 = some (.reg r))
    (hd : { s with latch := some { word := w, wait := k } }.regDraw r = some v) :
    step s = .next { s with
      latch := some { word := w, wait := k }, hpc := s.hpc + 1, resp := .word v, draws := s.draws + 1 } := by
  rw [step_read_running hl ho hg, State.busRead_reg_drawn rfl hd]
  rfl

/-- The layout of `STATUS` (R25) as a number: each field at its place. -/
theorem Status.word_eq_ofNat (t : Status) (busy : Bool) :
    t.word busy = BitVec.ofNat 32 (busy.toNat + 2 * t.done.toNat + 4 * t.err.toNat + 8 * t.haz.toNat +
      16 * t.matched.toNat + 32 * t.lenmis.toNat + 256 * t.errcode.code.toNat) := by
  apply BitVec.eq_of_toNat_eq
  have hcode := t.errcode.code.isLt
  have hflag : ∀ b : Bool, b.toNat < 2 := Bool.toNat_lt
  have hbusy := hflag busy
  have hdone := hflag t.done
  have herr := hflag t.err
  have hhaz := hflag t.haz
  have hmatched := hflag t.matched
  have hlenmis := hflag t.lenmis
  simp only [Status.word, toNat_append_eq_add, BitVec.toNat_ofBool, BitVec.ofNat_eq_ofNat, BitVec.toNat_ofNat]
  omega

theorem State.statusWord_idle {s : State} (hl : s.latch = none) :
    s.statusWord = BitVec.ofNat 32 (2 * s.status.done.toNat + 4 * s.status.err.toNat + 8 * s.status.haz.toNat +
      16 * s.status.matched.toNat + 32 * s.status.lenmis.toNat + 256 * s.status.errcode.code.toNat) := by
  rw [State.statusWord, State.busy_of_none hl, Status.word_eq_ofNat, Bool.toNat_false, Nat.zero_add]

theorem setWidth_eq_ofNat {n : Nat} (x : BitVec n) : x.setWidth 32 = BitVec.ofNat 32 x.toNat :=
  (BitVec.ofNat_toNat 32 x).symm

theorem ofBool_setWidth_eq_ofNat (b : Bool) : (BitVec.ofBool b).setWidth 32 = BitVec.ofNat 32 b.toNat := by
  rw [setWidth_eq_ofNat, BitVec.toNat_ofBool]

/-- Settles O13: one register after the other, each at its offset. -/
theorem idleReadsReturnTrueValues : Obligations.IdleReadsReturnTrueValues := by
  intro s off v hl ho hrow
  simp only [List.mem_cons, Prod.mk.injEq, List.not_mem_nil, or_false] at hrow
  obtain ⟨rfl, rfl⟩ | ⟨rfl, rfl⟩ | ⟨rfl, rfl⟩ | ⟨rfl, rfl⟩ | ⟨rfl, rfl⟩ | ⟨rfl, rfl⟩ | ⟨rfl, rfl⟩ | ⟨rfl, rfl⟩ |
    ⟨rfl, rfl⟩ | ⟨rfl, rfl⟩ | ⟨rfl, rfl⟩ | ⟨rfl, rfl⟩ := hrow
  · exact step_readReg_idle (r := .id) hl ho rfl rfl
  · exact step_readReg_idle (r := .ctrl) hl ho rfl (ofBool_setWidth_eq_ofNat _)
  · exact step_readReg_idle (r := .cmd) hl ho rfl rfl
  · exact step_readReg_idle (r := .status) hl ho rfl (State.statusWord_idle hl)
  · exact step_readReg_idle (r := .ilen) hl ho rfl (setWidth_eq_ofNat _)
  · exact step_readReg_idle (r := .olen) hl ho rfl (setWidth_eq_ofNat _)
  · exact step_readReg_idle (r := .errpos) hl ho rfl (setWidth_eq_ofNat _)
  · exact step_readReg_idle (r := .ctrLo) hl ho rfl rfl
  · exact step_readReg_idle (r := .ctrHi) hl ho rfl rfl
  · exact step_readReg_idle (r := .trunc) hl ho rfl (setWidth_eq_ofNat _)
  · exact step_readReg_idle (r := .codeval) hl ho rfl (setWidth_eq_ofNat _)
  · exact step_readReg_idle (r := .candlen) hl ho rfl (setWidth_eq_ofNat _)

/-- Settles O14: the registers that read true while busy, and the four that are drawn. -/
theorem busyReadsAreTrueOrDrawn : Obligations.BusyReadsAreTrueOrDrawn := by
  intro s w k off v hl ho
  refine ⟨fun hrow => ?_, fun hrow => ?_⟩ <;>
    simp only [List.mem_cons, Prod.mk.injEq, List.not_mem_nil, or_false] at hrow
  · obtain ⟨rfl, rfl⟩ | ⟨rfl, rfl⟩ | ⟨rfl, rfl⟩ | ⟨rfl, rfl⟩ | ⟨rfl, rfl⟩ | ⟨rfl, rfl⟩ | ⟨rfl, rfl⟩ |
      ⟨rfl, rfl⟩ := hrow
    · exact step_readReg_true (r := .id) hl ho rfl rfl rfl
    · exact step_readReg_true (r := .ctrl) hl ho rfl rfl (ofBool_setWidth_eq_ofNat _)
    · exact step_readReg_true (r := .cmd) hl ho rfl rfl rfl
    · exact step_readReg_true (r := .status) hl ho rfl rfl (Status.word_eq_ofNat s.status true)
    · exact step_readReg_true (r := .ilen) hl ho rfl rfl (setWidth_eq_ofNat _)
    · exact step_readReg_true (r := .ctrLo) hl ho rfl rfl rfl
    · exact step_readReg_true (r := .ctrHi) hl ho rfl rfl rfl
    · exact step_readReg_true (r := .candlen) hl ho rfl rfl (setWidth_eq_ofNat _)
  · obtain ⟨rfl, rfl⟩ | ⟨rfl, rfl⟩ | ⟨rfl, rfl⟩ | ⟨rfl, rfl⟩ := hrow
    · exact step_readReg_drawn (r := .olen) hl ho rfl (congrArg some (setWidth_eq_ofNat _))
    · exact step_readReg_drawn (r := .errpos) hl ho rfl (congrArg some (setWidth_eq_ofNat _))
    · exact step_readReg_drawn (r := .trunc) hl ho rfl (congrArg some (setWidth_eq_ofNat _))
    · exact step_readReg_drawn (r := .codeval) hl ho rfl (congrArg some (setWidth_eq_ofNat _))

/-- Bit [0] of a `STATUS` read is `BUSY`, busy or idle (R25, R36). -/
theorem State.statusWord_bit0 (s : State) : s.statusWord.getLsbD 0 = s.busy := Status.word_bit0 _ _

theorem State.tick_statusWord (s : State) : s.tick.statusWord = s.statusWord := by
  rw [State.statusWord, State.tick_status, State.tick_busy, State.statusWord]

/-- A `BIT1` line on bit [0] of `STATUS` branches while the engine is busy (R88). -/
theorem step_poll {s : State} {l : Nat} (hc : s.completing = none) (ho : s.nextOp = some (.bit1 l 0x00C 0)) :
    step s = .next ((s.tick.respond (.word s.statusWord)).goto (if s.busy then l else s.hpc + 1)) := by
  rw [step_bit1 (g := .reg .status) hc ho rfl, State.busRead_reg_true rfl, State.regValue, State.tick_statusWord,
    State.respond_resp, BusResponse.bitSet, State.statusWord_bit0]

/-- Settles O60: the polling line is such a line with itself as the target. -/
theorem pollingLoopWaitsForCompletion : Obligations.PollingLoopWaitsForCompletion := by
  refine fun s ho => ⟨fun w k hl => ?_, fun hl => ?_⟩
  · have hb := State.busy_of_some hl
    rw [step_poll (State.completing_of_running hl) ho, hb, State.tick_of_running hl]
    exact ⟨_, s.statusWord_bit0.trans hb, rfl⟩
  · have hb := State.busy_of_none hl
    rw [step_poll (State.completing_of_idle hl) ho, hb, State.tick_of_idle hl]
    exact ⟨_, s.statusWord_bit0.trans hb, rfl⟩

/-! ### Buffer reads (R66) -/

/-- While idle, and in `IBUF` and `CAND` at all times, a byte that has a value reads as that value. -/
theorem State.busRead_byte_true {s : State} {b : Buffer} {a : Nat} {v : Byte}
    (h : s.busy = true → b.isResult = false) (hv : s.mem.read a = some v) :
    s.busRead (.byte b a) = s.respond (.byte v) := by
  have hdraw : ¬(s.busy && b.isResult) = true := by simpa using h
  rw [State.busRead, State.readByte, if_neg hdraw, hv]

/-- A result buffer while busy, and a byte with no value at all times, reads as a free value. -/
theorem State.busRead_byte_drawn {s : State} {b : Buffer} {a : Nat}
    (h : (s.busy = true ∧ b.isResult = true) ∨ s.mem.read a = none) :
    s.busRead (.byte b a) = s.respondDrawn (.byte (Config.anyU8 s.draws)) := by
  rw [State.busRead, State.readByte]
  split
  case isTrue => rfl
  case isFalse hdraw =>
    have hnone : s.mem.read a = none := h.resolve_left (by simpa using hdraw)
    rw [hnone]

theorem accessTarget_expected {p : Config.Params} {off : Offset} (hlo : 0x100 ≤ off.toNat)
    (hhi : off.toNat < 0x106) : accessTarget p off 1 = some (.byte .expected off.toNat) := by
  rw [accessTarget, if_neg (by omega), if_pos rfl, byteTarget, if_pos ⟨hlo, hhi⟩]

theorem accessTarget_candidate {p : Config.Params} {off : Offset} (hlo : 0x108 ≤ off.toNat)
    (hhi : off.toNat < 0x10E) : accessTarget p off 1 = some (.byte .candidate off.toNat) := by
  rw [accessTarget, if_neg (by omega), if_pos rfl, byteTarget, if_neg (by omega), if_pos ⟨hlo, hhi⟩]

theorem accessTarget_ibuf {p : Config.Params} {off : Offset} (hlo : 0x1000 ≤ off.toNat)
    (hhi : off.toNat < 0x1000 + p.ibufSize) : accessTarget p off 1 = some (.byte .ibuf off.toNat) := by
  rw [accessTarget, if_neg (by omega), if_pos rfl, byteTarget, if_neg (by omega), if_neg (by omega),
    if_neg (by omega), if_pos ⟨hlo, hhi⟩]

/-- Where `IBUF` ends below `OBUF` (R6), the result buffers are those below 0x106 and from 0x2000 on. -/
theorem accessTarget_of_isBufferByte {p : Config.Params} {off : Offset} (hp : p.ibufSize ≤ 4096)
    (h : isBufferByte p off.toNat) :
    ∃ b, accessTarget p off 1 = some (.byte b off.toNat) ∧
      (b.isResult = true ↔ off.toNat < 0x106 ∨ 0x2000 ≤ off.toNat) := by
  obtain ⟨hlo, hhi⟩ | ⟨hlo, hhi⟩ | ⟨hlo, hhi⟩ | ⟨hlo, hhi⟩ := h
  · exact ⟨_, accessTarget_expected hlo hhi, iff_of_true rfl (.inl hhi)⟩
  · exact ⟨_, accessTarget_candidate hlo hhi, iff_of_false nofun (by omega)⟩
  · exact ⟨_, accessTarget_ibuf hlo hhi, iff_of_false nofun (by omega)⟩
  · exact ⟨_, accessTarget_obuf hp hlo hhi, iff_of_true rfl (.inr hlo)⟩

/-- Settles O15: the byte's target, and whether it reads true or is drawn. -/
theorem byteReadsReturnByteOrDraw : Obligations.ByteReadsReturnByteOrDraw := by
  intro s off hok ho hbyte
  obtain ⟨-, hibuf, -⟩ := hok
  obtain ⟨b, hg, hresult⟩ := accessTarget_of_isBufferByte hibuf hbyte
  refine ⟨fun v hl hv => ?_, fun hl hv => ?_, fun w k hl hdraw => ?_, fun w k v hl hlo hhi hv => ?_⟩
  · have hidle : s.busy = true → b.isResult = false := by simp [State.busy_of_none hl]
    rw [step_read_idle hl ho hg, State.busRead_byte_true hidle hv]
    rfl
  · rw [step_read_idle hl ho hg, State.busRead_byte_drawn (.inr hv)]
    rfl
  · have hread := State.busRead_byte_drawn (s := { s with latch := some { word := w, wait := k } })
      (hdraw.imp_left fun hrange => ⟨rfl, hresult.mpr hrange⟩)
    rw [step_read_running hl ho hg, hread]
    rfl
  · have htrue : b.isResult = false := by
      rw [← Bool.not_eq_true, hresult]
      omega
    have hread := State.busRead_byte_true (s := { s with latch := some { word := w, wait := k } })
      (fun _ => htrue) hv
    rw [step_read_running hl ho hg, hread]
    rfl

/-! ### Reserved space (R49) -/

theorem accessTarget_reserved {p : Config.Params} {off : Offset} (hlo : 0x030 ≤ off.toNat)
    (hhi : off.toNat ≤ 0x0FC) (h4 : off.toNat % 4 = 0) : accessTarget p off 4 = some (.reg .reserved) := by
  obtain ⟨-, -, -, -, -, -, -, -, -, -, -, -, hreserved⟩ := regAt_eq_iff h4
  rw [accessTarget, if_pos (by omega), if_pos ⟨rfl, h4⟩, hreserved.mpr hlo]

/-- Settles O12: the two reserved targets answer 0 and ignore writes, after the running command's cycle. -/
theorem reservedSpaceReadsZeroAndIgnoresWrites : Obligations.ReservedSpaceReadsZeroAndIgnoresWrites := by
  refine fun s off hc => ⟨fun ⟨hlo, hhi, h4⟩ => ?_, fun hoff => ?_⟩
  · have hg := accessTarget_reserved (p := s.cfg) hlo hhi h4
    refine ⟨fun ho => ?_, fun v ho => step_write hc ho hg⟩
    rw [step_read hc ho hg, State.busRead_reg_true rfl]
    rfl
  · have hg : accessTarget s.cfg off 1 = some .reservedByte := by
      obtain rfl | rfl | rfl | rfl := hoff <;> rfl
    exact ⟨fun ho => step_read hc ho hg, fun v ho => step_write hc ho hg⟩

/-! ### Idle writes (R23 to R43) -/

/-- The byte windows the host can write. -/
theorem accessTarget_inputByte {p : Config.Params} {off : Offset}
    (h : (0x100 ≤ off.toNat ∧ off.toNat < 0x106) ∨ (0x108 ≤ off.toNat ∧ off.toNat < 0x10E) ∨
      (0x1000 ≤ off.toNat ∧ off.toNat < 0x1000 + p.ibufSize)) :
    ∃ b, b ≠ .obuf ∧ accessTarget p off 1 = some (.byte b off.toNat) := by
  obtain ⟨hlo, hhi⟩ | ⟨hlo, hhi⟩ | ⟨hlo, hhi⟩ := h
  · exact ⟨.expected, nofun, accessTarget_expected hlo hhi⟩
  · exact ⟨.candidate, nofun, accessTarget_candidate hlo hhi⟩
  · exact ⟨.ibuf, nofun, accessTarget_ibuf hlo hhi⟩

theorem State.writeByte_idle {s : State} {b : Buffer} (hs : s.busy = false) (hb : b ≠ .obuf) (v : Byte)
    (a : Nat) : s.writeByte v b a = { s with mem := s.mem.write a v } := by
  cases b with
  | obuf => exact absurd rfl hb
  | ibuf | expected | candidate => exact State.inputWrite_idle hs

theorem State.busWrite_reg_input {s e : State} {v : Word} {r : Reg} (hs : s.busy = false)
    (h : s.writeReg v r = s.inputWrite e) : s.busWrite v (.reg r) = e.respond .ack := by
  rw [State.busWrite, h, State.inputWrite_idle hs]

/-- Settles O11: each register at its offset, and the byte windows the host can write. -/
theorem idleWritesAreStored : Obligations.IdleWritesAreStored := by
  intro s off width v hl ho
  have hidle := State.busy_of_none hl
  refine ⟨?_, ?_, ?_, ?_, ?_, ?_, ?_⟩
  · rintro rfl rfl
    rw [step_write_idle (g := .reg .ilen) hl ho rfl, State.busWrite_reg_input hidle rfl, ← BitVec.ofNat_toNat]
    rfl
  · rintro rfl rfl
    rw [step_write_idle (g := .reg .ctrLo) hl ho rfl, State.busWrite_reg_input hidle rfl]
    rfl
  · rintro rfl rfl
    rw [step_write_idle (g := .reg .ctrHi) hl ho rfl, State.busWrite_reg_input hidle rfl]
    rfl
  · rintro rfl rfl
    rw [step_write_idle (g := .reg .candlen) hl ho rfl, State.busWrite_reg_input hidle rfl,
      ← BitVec.ofNat_toNat]
    rfl
  · rintro rfl rfl
    exact step_write_idle (g := .reg .ctrl) hl ho rfl
  · rintro rfl rfl
    exact step_write_idle (g := .reg .status) hl ho rfl
  · rintro rfl hrange
    obtain ⟨b, hb, hg⟩ := accessTarget_inputByte hrange
    refine ⟨s.mem.write off.toNat (v.setWidth 8), ?_, ?_, fun a ha => Memory.read_write_other (by omega)⟩
    · rw [step_write_idle hl ho hg, State.busWrite, State.writeByte_idle hidle hb]
      rfl
    · rw [Memory.read_write_same, BitVec.ofNat_toNat]

end Sys2Proof.Machine

/-! Proofs of the family other, completions: how each command ends, and what it leaves. -/

namespace Sys2Proof.Machine

/-! ### Every way a command completes (R182, R183) -/

/-- The lengths that end a command before it reads a byte (R184). -/
def State.BadLength (s : State) (i : Instr) : Prop :=
  ((i = .b32enc ∨ i = .b32dec) ∧ s.cfg.ibufSize < s.ilen.toNat) ∨
    ((i = .hotptrunc ∨ i = .trunccmp) ∧ s.ilen.toNat ≠ 20)

theorem exec_of_badLength {s : State} {i : Instr} (h : s.BadLength i) :
    exec i s = .next (s.blockError .badLength 0) := by
  obtain ⟨rfl | rfl, hlen⟩ | ⟨rfl | rfl, hlen⟩ := h
  · exact exec_b32enc_of_badLength hlen
  · exact exec_b32dec_of_badLength hlen
  · exact exec_hotptrunc_of_badLength hlen
  · exact exec_trunccmp_of_badLength hlen

/-- Settles O26: the bad lengths of the four commands end in the same error completion. -/
theorem badLengthIsReported : Obligations.BadLengthIsReported := fun _ _ => exec_of_badLength

/-- The shape of every next state that the completion of a command from `s` can answer, with the facts about lengths
and verdicts that the rules of the whole machine rest on. -/
inductive Completion (s : State) : Instr → State → Prop
  | nop : Completion s .nop (s.finish 0 false false)
  | illegal (w : Word) : Completion s (.illegal w) (s.blockError .illegalCommand 0)
  | badLength {i : Instr} (h : s.BadLength i) : Completion s i (s.blockError .badLength 0)
  | encoded (bs : List Byte) (hlen : bs.length = s.ilen.toNat) (hfit : s.ilen.toNat ≤ s.cfg.ibufSize) :
      Completion s .b32enc ((s.writeAt obufBase (base32Encode bs)).finish (encodedLen bs.length) false false)
  | invalid (text : List Byte) (p : Nat) (hlen : text.length = s.ilen.toNat)
      (hfit : s.ilen.toNat ≤ s.cfg.ibufSize) (hp : p < text.length) :
      Completion s .b32dec
        ((s.drawBytes obufBase (decodedLen (kept text).length)).blockError .invalidCharacter p)
  | decoded (text : List Byte) (hlen : text.length = s.ilen.toNat) (hfit : s.ilen.toNat ≤ s.cfg.ibufSize) :
      Completion s .b32dec ((s.writeAt obufBase (base32Decode (symbolValues (kept text)))).finish
        (decodedLen (kept text).length) false false)
  | serialised :
      Completion s .ctrser ((s.writeAt obufBase (counterBytes s.counter)).finish 8 false false)
  | truncated (d : List Byte) : Completion s .hotptrunc ((s.truncate d).finish 6 false false)
  | compared (m l : Bool) (h : m = true → l = false) : Completion s .ctcmp (s.finish 0 m l)
  | truncatedCompared (d : List Byte) (m l : Bool) (h : m = true → l = false) :
      Completion s .trunccmp ((s.truncate d).finish 6 m l)
  | zeroized : Completion s .zeroize (s.zeroBuffers.zeroRegisters.finish 0 false false)

/-- A compare completes with at most one of `MATCH` and `LENMIS`. -/
theorem State.compare_next_verdict {s t : State} {n : Nat} (h : s.compare n = .next t) :
    ∃ m l, (m = true → l = false) ∧ t = s.finish n m l := by
  obtain ⟨-, rfl⟩ | ⟨-, e, c, -, -, rfl⟩ := State.compare_next h
  · exact ⟨false, true, nofun, rfl⟩
  · exact ⟨_, false, fun _ => rfl, rfl⟩

theorem exec_completion {i : Instr} {s t : State} (h : exec i s = .next t) : Completion s i t := by
  cases i with
  | nop => cases h; exact .nop
  | ctrser => cases h; exact .serialised
  | zeroize => cases h; exact .zeroized
  | illegal w => cases h; exact .illegal w
  | b32enc =>
    obtain ⟨hbad, rfl⟩ | ⟨hfit, bs, -, hlen, rfl⟩ := execB32enc_next h
    · exact .badLength (.inl ⟨.inl rfl, hbad⟩)
    · exact .encoded bs hlen hfit
  | b32dec =>
    obtain ⟨hbad, rfl⟩ | ⟨hfit, text, -, hlen, rfl⟩ := execB32dec_next h
    · exact .badLength (.inl ⟨.inr rfl, hbad⟩)
    · obtain ⟨p, -, hp, ht⟩ | ⟨-, ht⟩ := s.decodeText_cases text <;> rw [ht]
      · exact .invalid text p hlen hfit hp
      · exact .decoded text hlen hfit
  | hotptrunc =>
    obtain ⟨hbad, rfl⟩ | ⟨-, d, -, -, rfl⟩ := execHotptrunc_next h
    · exact .badLength (.inr ⟨.inl rfl, hbad⟩)
    · exact .truncated d
  | ctcmp =>
    obtain ⟨m, l, hml, rfl⟩ := State.compare_next_verdict h
    exact .compared m l hml
  | trunccmp =>
    obtain ⟨hbad, rfl⟩ | ⟨-, d, -, -, h⟩ := execTrunccmp_next h
    · exact .badLength (.inr ⟨.inr rfl, hbad⟩)
    · obtain ⟨m, l, hml, rfl⟩ := State.compare_next_verdict h
      exact .truncatedCompared d m l hml

namespace Completion

/-! ### What every completion has in common -/

theorem latch {i : Instr} {s t : State} (h : Completion s i t) : t.latch = none := by
  cases h <;> rfl

theorem cfg {i : Instr} {s t : State} (h : Completion s i t) : t.cfg = s.cfg := by
  cases h <;> simp

theorem script {i : Instr} {s t : State} (h : Completion s i t) : t.script = s.script := by
  cases h <;> simp

theorem ctrlIe {i : Instr} {s t : State} (h : Completion s i t) : t.ctrlIe = s.ctrlIe := by
  cases h <;> simp

theorem hpc {i : Instr} {s t : State} (h : Completion s i t) : t.hpc = s.hpc := by
  cases h <;> simp

theorem resp {i : Instr} {s t : State} (h : Completion s i t) : t.resp = s.resp := by
  cases h <;> simp

/-- The report of a completion: a compare's verdict without an error, or an error code; only
`INVALID_CHARACTER` has a position (R28, R30, R33). -/
theorem report {i : Instr} {s t : State} (h : Completion s i t) :
    (∃ m l, (m = true → l = false) ∧ t.status = s.status.completed m l ∧ t.errpos = 0) ∨
      ∃ c, c ≠ .none ∧ t.status = s.status.failed c ∧ (c ≠ .invalidCharacter → t.errpos = 0) := by
  cases h with
  | nop | encoded | decoded | serialised | truncated | zeroized =>
    exact .inl ⟨false, false, nofun, by simp, rfl⟩
  | compared m l hml | truncatedCompared d m l hml => exact .inl ⟨m, l, hml, by simp, rfl⟩
  | illegal w => exact .inr ⟨.illegalCommand, nofun, rfl, fun _ => rfl⟩
  | badLength => exact .inr ⟨.badLength, nofun, rfl, fun _ => rfl⟩
  | invalid => exact .inr ⟨.invalidCharacter, nofun, rfl, fun hne => absurd rfl hne⟩

end Completion

/-- Settles O44: the report of a completion, and the fields no command changes. -/
theorem everyCompletionReports : Obligations.EveryCompletionReports := by
  intro i s t h
  have hc := exec_completion h
  refine ⟨State.busy_of_none hc.latch, ?_, exec_haz h, hc.ctrlIe, ?_, hc.cfg, hc.script, hc.hpc, hc.resp, ?_⟩
  all_goals obtain ⟨m, l, -, hstatus, hpos⟩ | ⟨c, hne, hstatus, hpos⟩ := hc.report
  · rw [hstatus, Status.completed_done]
  · rw [hstatus, Status.failed_done]
  · rw [State.irq, hstatus, hc.ctrlIe, Status.completed_done, Bool.true_and]
  · rw [State.irq, hstatus, hc.ctrlIe, Status.failed_done, Bool.true_and]
  · rw [hstatus]
    exact ⟨iff_of_false nofun fun hcode => hcode rfl, fun _ => hpos⟩
  · rw [hstatus]
    exact ⟨iff_of_true rfl hne, hpos⟩

/-! ### The error codes (R184, R185) -/

/-- Each error code, by the command that reports it. -/
theorem Completion.errcode_illegalCommand_iff {i : Instr} {s t : State} (h : Completion s i t) :
    t.status.errcode = .illegalCommand ↔ ∃ w, i = .illegal w := by
  cases h with
  | illegal w => exact iff_of_true rfl ⟨w, rfl⟩
  | badLength hbad =>
    refine iff_of_false nofun ?_
    rintro ⟨w, rfl⟩
    simp [State.BadLength] at hbad
  | _ => exact iff_of_false (by simp [Status.completed, Status.failed]) (by simp)

theorem Completion.b32dec_of_invalidCharacter {i : Instr} {s t : State} (h : Completion s i t)
    (hcode : t.status.errcode = .invalidCharacter) : i = .b32dec ∧ s.ilen.toNat ≤ s.cfg.ibufSize := by
  cases h with
  | invalid text p hlen hfit => exact ⟨rfl, hfit⟩
  | _ => simp [Status.completed, Status.failed] at hcode

end Sys2Proof.Machine

/-! Proofs of the family other, completions: the error codes, the frames and the stops. -/

namespace Sys2Proof.Machine

theorem decode_eq_b32dec_iff (w : Word) : decode w = .b32dec ↔ w.toNat = 2 := by
  constructor
  · intro hd
    rw [← encode_decode w, hd]
    rfl
  · intro hw
    obtain rfl : w = 2 := BitVec.eq_of_toNat_eq hw
    decide

/-- Settles O47: the codes an illegal word, a bad length and an invalid character report. -/
theorem errorPriority : Obligations.ErrorPriority := by
  intro s t w h
  have hc := exec_completion h
  refine ⟨fun hw => ?_, fun hw hlen => ?_, fun hcode => ?_, fun hcode => ?_⟩
  · exact hc.errcode_illegalCommand_iff.mpr ⟨w, decode_of_ge hw⟩
  · rw [(decode_eq_b32dec_iff w).mpr hw, exec_b32dec_of_badLength hlen] at h
    cases h
    rfl
  · obtain ⟨v, hv⟩ := hc.errcode_illegalCommand_iff.mp hcode
    exact (reserved_or_undefined_iff w).mp ((decode_eq_illegal_iff w v).mp hv).2
  · obtain ⟨hd, hfit⟩ := hc.b32dec_of_invalidCharacter hcode
    exact ⟨(decode_eq_b32dec_iff w).mp hd, hfit⟩

/-! ### The data effects of an error (R186) -/

theorem Memory.SameOutside.mono {m m' : Memory} {b n k : Nat} (h : m.SameOutside m' b n) (hnk : n ≤ k) :
    m.SameOutside m' b k :=
  fun a ha => h a (by omega)

theorem decodedLen_kept_le (text : List Byte) : decodedLen (kept text).length ≤ 5 * text.length / 8 := by
  have hle := keptFrom_length_le text 0
  simp only [decodedLen, kept]
  omega

/-- Settles O46: an error completion writes no data, but for the free bytes of an invalid character. -/
theorem errorsLeaveDataAlone : Obligations.ErrorsLeaveDataAlone := by
  intro i s t h herr
  cases exec_completion h with
  | illegal | badLength =>
    exact ⟨rfl, rfl, rfl, rfl, rfl, rfl, rfl, rfl, rfl, fun _ => rfl, nofun⟩
  | invalid text p hlen =>
    refine ⟨rfl, rfl, rfl, rfl, rfl, rfl, rfl, rfl, rfl, fun hne => absurd rfl hne, fun _ => ⟨rfl, ?_⟩⟩
    have hframe := s.mem.writeBytes_sameOutside obufBase (freeBytes s.draws (decodedLen (kept text).length))
    rw [freeBytes_length] at hframe
    exact hframe.mono (hlen ▸ decodedLen_kept_le text)
  | _ => cases herr

/-! ### The frame of every command (R36) -/

theorem State.writeAt_read_of_lt (s : State) {b a : Nat} (vs : List Byte) (h : a < b) :
    (s.writeAt b vs).mem.read a = s.mem.read a :=
  s.mem.writeBytes_sameOutside b vs a (by omega)

theorem State.writeAt_read_of_ge (s : State) {b a : Nat} (vs : List Byte) (h : b + vs.length ≤ a) :
    (s.writeAt b vs).mem.read a = s.mem.read a :=
  s.mem.writeBytes_sameOutside b vs a (by omega)

/-- The bytes from `OLEN` on, where a command wrote `OLEN` bytes to `OBUF` and `OLEN` fits its register. -/
theorem State.writeAt_obuf_read_of_olen_le (s : State) {vs : List Byte} {n k : Nat} (hlen : vs.length = n)
    (hn : n ≤ 4096) (hk : (BitVec.ofNat 16 n).toNat ≤ k) :
    (s.writeAt obufBase vs).mem.read (0x2000 + k) = s.mem.read (0x2000 + k) := by
  rw [olen_toNat hn] at hk
  exact s.writeAt_read_of_ge vs (Nat.add_le_add_left (hlen.le.trans hk) _)

/-- With allowed parameters the text of an input that fits `IBUF` fits `OBUF` (R6, R103). -/
theorem encodedLen_le_obufSize {p : Config.Params} (hok : p.Ok) {n : Nat} (hn : n ≤ p.ibufSize) :
    encodedLen n ≤ p.obufSize := by
  obtain ⟨-, -, -, hobuf, -⟩ := hok
  simp only [encodedLen]
  omega

/-- With allowed parameters the bytes of a text that fits `IBUF` fit `OBUF` (R6, R108). -/
theorem decodedLen_le_obufSize {p : Config.Params} (hok : p.Ok) {text : List Byte}
    (hn : text.length ≤ p.ibufSize) : decodedLen (kept text).length ≤ p.obufSize := by
  obtain ⟨-, -, -, hobuf, -⟩ := hok
  have hle := decodedLen_kept_le text
  omega

namespace Completion

/-- No command but `ZEROIZE` writes input registers (R31, R34, R39). -/
theorem inputs {i : Instr} {s t : State} (h : Completion s i t) (hi : i ≠ .zeroize) :
    t.ilen = s.ilen ∧ t.ctrLo = s.ctrLo ∧ t.ctrHi = s.ctrHi ∧ t.candlen = s.candlen := by
  cases h with
  | zeroized => exact absurd rfl hi
  | _ => simp

/-- `TRUNC` and `CODEVAL` are results of the truncation (R37, R38). -/
theorem trunc_codeval {i : Instr} {s t : State} (h : Completion s i t) (hi : i ≠ .zeroize)
    (hh : i ≠ .hotptrunc) (ht : i ≠ .trunccmp) : t.trunc = s.trunc ∧ t.codeval = s.codeval := by
  cases h with
  | zeroized => exact absurd rfl hi
  | truncated => exact absurd rfl hh
  | truncatedCompared => exact absurd rfl ht
  | _ => exact ⟨rfl, rfl⟩

/-- Only a failed `B32DEC` draws. -/
theorem draws {i : Instr} {s t : State} (h : Completion s i t) (hi : i ≠ .b32dec) : t.draws = s.draws := by
  cases h with
  | invalid => exact absurd rfl hi
  | _ => simp

/-- `MATCH` and `LENMIS` are results of the comparator (R30). -/
theorem verdict {i : Instr} {s t : State} (h : Completion s i t) (hc : i ≠ .ctcmp) (ht : i ≠ .trunccmp) :
    t.status.matched = false ∧ t.status.lenmis = false := by
  cases h with
  | compared => exact absurd rfl hc
  | truncatedCompared => exact absurd rfl ht
  | _ => exact ⟨rfl, rfl⟩

/-- Below `OBUF` only the truncation writes, and only `EXP`. -/
theorem read_below_obuf {i : Instr} {s t : State} (h : Completion s i t) (hi : i ≠ .zeroize) {a : Nat}
    (ha : a < 0x2000) (hexp : i = .hotptrunc ∨ i = .trunccmp → ¬(0x100 ≤ a ∧ a < 0x106)) :
    t.mem.read a = s.mem.read a := by
  cases h with
  | zeroized => exact absurd rfl hi
  | nop | illegal | badLength | compared => rfl
  | encoded | decoded | serialised =>
    rw [State.finish_mem]
    exact s.writeAt_read_of_lt _ ha
  | invalid =>
    rw [State.blockError_mem]
    exact s.writeAt_read_of_lt (freeBytes _ _) ha
  | truncated d =>
    rw [State.finish_mem]
    exact s.truncate_read_other d (by omega) (hexp (.inl rfl))
  | truncatedCompared d =>
    rw [State.finish_mem]
    exact s.truncate_read_other d (by omega) (hexp (.inr rfl))

/-- A command that reports no error writes `OBUF` below `OLEN` only. -/
theorem obufAt_of_olen_le {i : Instr} {s t : State} (h : Completion s i t) (hi : i ≠ .zeroize)
    (hok : s.cfg.Ok) (herr : t.status.err = false) {k : Nat} (hk : t.olen.toNat ≤ k) :
    t.obufAt k = s.obufAt k := by
  obtain ⟨-, -, -, -, hobuf⟩ := id hok
  rw [State.obufAt, State.obufAt]
  cases h with
  | zeroized => exact absurd rfl hi
  | illegal | badLength | invalid => cases herr
  | nop | compared => rfl
  | encoded bs hlen hfit =>
    rw [State.finish_mem]
    exact s.writeAt_obuf_read_of_olen_le (base32Encode_length bs)
      ((encodedLen_le_obufSize hok (hlen.trans_le hfit)).trans hobuf) hk
  | decoded text hlen hfit =>
    rw [State.finish_mem]
    exact s.writeAt_obuf_read_of_olen_le (by rw [base32Decode_length, symbolValues_length])
      ((decodedLen_le_obufSize hok (hlen.trans_le hfit)).trans hobuf) hk
  | serialised =>
    rw [State.finish_mem]
    exact s.writeAt_obuf_read_of_olen_le (counterBytes_length _) (by decide) hk
  | truncated d | truncatedCompared d =>
    have hsix : 6 ≤ k := hk
    rw [State.finish_mem]
    exact s.truncate_read_other d (by omega) (by omega)

end Completion

/-- Settles O45: the frame of every command, one part after the other. -/
theorem commandsWriteOnlyTheirResults : Obligations.CommandsWriteOnlyTheirResults := by
  intro i s t h hi
  have hc := exec_completion h
  obtain ⟨hilen, hlo, hhi, hcandlen⟩ := hc.inputs hi
  exact ⟨hilen, hlo, hhi, hcandlen, hc.trunc_codeval hi, hc.draws, hc.verdict, fun a => hc.read_below_obuf hi,
    fun k hk herr hok => hc.obufAt_of_olen_le hi hok herr hk⟩

/-! ### Where a command stops (R35) -/

theorem State.inputLen_eq_of_ilen {s : State} (h : s.ilen = 20) : s.inputLen = 20 := by
  rw [State.inputLen, h]
  rfl

/-- Settles O27: the codec commands read the `ILEN` input bytes in order. -/
theorem codecStopsAtByteWithoutValue : Obligations.CodecStopsAtByteWithoutValue := by
  intro s i j hi hfit hj hnone hbefore
  have hread : s.inputBytes = .error (.unwrittenRead (0x1000 + j)) :=
    Memory.readBytes_first hj hnone hbefore
  obtain rfl | rfl := hi
  · rw [exec, execB32enc, State.inputLen, if_neg (by omega), hread, onBytes]
  · rw [exec, execB32dec, State.inputLen, if_neg (by omega), hread, onBytes]

/-- Settles O37: the truncation commands read the 20 digest bytes in order. -/
theorem truncationStopsAtByteWithoutValue : Obligations.TruncationStopsAtByteWithoutValue := by
  intro s i j hi hilen hj hnone hbefore
  have hread : s.digest = .error (.unwrittenRead (0x1000 + j)) := Memory.readBytes_first hj hnone hbefore
  have hin := State.inputLen_eq_of_ilen hilen
  obtain rfl | rfl := hi
  · rw [exec, execHotptrunc, if_pos hin, hread, onBytes]
  · rw [exec, execTrunccmp, if_pos hin, hread, onBytes]

/-- From `s` the outcome `o` is a next state, or the fault for a buffer byte that has no value. -/
def State.Answers (s : State) (o : Host.Outcome State Fault Refusal) : Prop :=
  (∃ t, o = .next t) ∨ ∃ a, o = .fault (.unwrittenRead a) ∧ isBufferByte s.cfg a ∧ s.mem.read a = none

/-- A byte without a value in a later state has none in the earlier one. -/
theorem State.Answers.of_extends {s t : State} (h : s.Extends t) {o : Host.Outcome State Fault Refusal}
    (ht : t.Answers o) : s.Answers o := by
  refine ht.imp_right fun ⟨a, ho, hbyte, hnone⟩ => ⟨a, ho, h.cfg ▸ hbyte, ?_⟩
  by_contra hsome
  have hkept := h.written a (Option.isSome_iff_ne_none.mpr hsome)
  rw [hnone] at hkept
  cases hkept

/-- A read of buffer bytes answers when what goes on with the bytes answers. -/
theorem State.answers_onBytes {s : State} {b n : Nat} (hrange : ∀ i, i < n → isBufferByte s.cfg (b + i))
    {k : List Byte → Host.Outcome State Fault Refusal} (hk : ∀ vs, s.Answers (k vs)) :
    s.Answers (onBytes (s.mem.readBytes b n) k) := by
  obtain ⟨e, hread, ho⟩ | ⟨vs, -, ho⟩ := onBytes_cases (s.mem.readBytes b n) k <;> rw [ho]
  · obtain ⟨i, hi, hnone, -, rfl⟩ := Memory.readBytes_error hread
    exact .inr ⟨b + i, rfl, hrange i hi, hnone⟩
  · exact hk vs

theorem State.answers_next (s t : State) : s.Answers (.next t) := .inl ⟨t, rfl⟩

theorem State.compare_answers (s : State) (n : Nat) : s.Answers (s.compare n) := by
  rw [State.compare]
  split
  · refine State.answers_onBytes (fun i hi => .inl ?_) fun e =>
      State.answers_onBytes (fun i hi => .inr (.inl ?_)) fun c => s.answers_next _
    · simp only [expBase]; omega
    · simp only [candBase]; omega
  · exact s.answers_next _

theorem ibuf_isBufferByte {p : Config.Params} {n : Nat} (hn : n ≤ p.ibufSize) :
    ∀ i, i < n → isBufferByte p (ibufBase + i) := by
  intro i hi
  simp only [ibufBase]
  exact .inr (.inr (.inl (by omega)))

/-- Every command answers: it completes, or stops at a buffer byte without a value. -/
theorem exec_answers {s : State} (hok : s.cfg.Ok) (i : Instr) : s.Answers (exec i s) := by
  obtain ⟨hibuf, -⟩ := hok
  have hdigest := ibuf_isBufferByte hibuf
  by_cases hbad : s.BadLength i
  · rw [exec_of_badLength hbad]
    exact s.answers_next _
  cases i with
  | nop | ctrser | zeroize | illegal => exact s.answers_next _
  | ctcmp => exact s.compare_answers 0
  | b32enc =>
    have hfit : s.inputLen ≤ s.cfg.ibufSize := by simpa [State.BadLength, State.inputLen] using hbad
    rw [exec, execB32enc, if_neg hfit.not_gt]
    exact State.answers_onBytes (ibuf_isBufferByte hfit) fun _ => s.answers_next _
  | b32dec =>
    have hfit : s.inputLen ≤ s.cfg.ibufSize := by simpa [State.BadLength, State.inputLen] using hbad
    rw [exec, execB32dec, if_neg hfit.not_gt]
    exact State.answers_onBytes (ibuf_isBufferByte hfit) fun _ => s.answers_next _
  | hotptrunc =>
    have hilen : s.inputLen = 20 := by simpa [State.BadLength, State.inputLen] using hbad
    rw [exec, execHotptrunc, if_pos hilen]
    exact State.answers_onBytes hdigest fun _ => s.answers_next _
  | trunccmp =>
    have hilen : s.inputLen = 20 := by simpa [State.BadLength, State.inputLen] using hbad
    rw [exec, execTrunccmp, if_pos hilen]
    exact State.answers_onBytes hdigest fun d => .of_extends (s.extends_truncate d) (State.compare_answers _ 6)

/-- Settles O42: the completions of the family 43_control.md. -/
theorem writtenBuffersNeverFault : Obligations.WrittenBuffersNeverFault :=
  fun _ i hok hw => hw.exec_completes hok i

/-- A host slot that does not answer a next state is an access that is not admitted. -/
theorem State.hostStep_answers (s : State) : (∃ t, s.hostStep = .next t) ∨
    ∃ op off w, s.nextOp = some op ∧ op.access = some (off, w) ∧ ¬ Admitted s.cfg off w ∧
      s.hostStep = .fault (.busError off) := by
  cases ho : s.nextOp with
  | none => simp only [State.hostStep, ho]; exact .inl ⟨_, rfl⟩
  | some op =>
    cases ha : op.access with
    | none =>
      cases op with
      | read | write | bit1 => cases ha
      | idle | reset => simp only [State.hostStep, ho]; exact .inl ⟨_, rfl⟩
    | some ow =>
      obtain ⟨off, w⟩ := ow
      by_cases hadm : Admitted s.cfg off w
      · exact .inl (State.hostStep_of_admitted ho ha hadm)
      · exact .inr ⟨op, off, w, rfl, ha, hadm, State.hostStep_of_not_admitted ho ha hadm⟩

/-- Settles O43: the stops of a completion and of a host slot. -/
theorem stopsOnlyForRefusedAccessOrMissingByte : Obligations.StopsOnlyForRefusedAccessOrMissingByte := by
  intro s hok
  obtain ⟨w, hc, hs⟩ | ⟨hc, hs⟩ := step_cases s <;> rw [hs]
  · exact (exec_answers hok (decode w)).imp_right fun ⟨a, ho, hbyte, hnone⟩ =>
      .inr ⟨a, ho, by rw [hc]; exact nofun, hbyte, hnone⟩
  · refine s.hostStep_answers.imp_right fun ⟨op, off, w, ho, ha, hadm, hfault⟩ =>
      .inl ⟨off, hfault, hc, w, hadm, ?_⟩
    cases op with
    | idle | reset => cases ha
    | read => cases ha; exact .inl ho
    | write => cases ha; exact .inr (.inl ⟨_, ho⟩)
    | bit1 => cases ha; exact .inr (.inr ⟨_, _, rfl, ho⟩)

end Sys2Proof.Machine

/-! Proofs of the family other, the codec: what `B32DEC` writes, what it reports, and on what it depends. -/

namespace Sys2Proof.Machine

/-! ### The kept characters of a text (R105, R106) -/

theorem keptFrom_chars (text : List Byte) (n : Nat) :
    (keptFrom n text).map Prod.snd = (text.map foldCase).filter fun c => decide (c ≠ 0x3D) := by
  induction text generalizing n with
  | nil => rfl
  | cons c cs ih =>
    rw [keptFrom, List.map_cons, List.filter_cons]
    by_cases hpad : foldCase c = 0x3D
    · rw [if_pos hpad, if_neg (by rw [hpad]; decide), ih]
    · rw [if_neg hpad, if_pos (decide_eq_true hpad), List.map_cons, ih]

theorem kept_chars (text : List Byte) :
    (kept text).map Prod.snd = (text.map foldCase).filter fun c => decide (c ≠ 0x3D) :=
  keptFrom_chars text 0

theorem kept_length (text : List Byte) :
    (kept text).length = ((text.map foldCase).filter fun c => decide (c ≠ 0x3D)).length := by
  rw [← kept_chars, List.length_map]

/-- Folding makes no padding character and removes none. -/
theorem foldCase_eq_pad_iff (c : Byte) : foldCase c = 0x3D ↔ c = 0x3D := by
  revert c
  decide

theorem kept_length_eq_filter (text : List Byte) :
    (kept text).length = (text.filter fun c => decide (c ≠ 0x3D)).length := by
  rw [kept_length, List.filter_map, List.length_map]
  simp only [Function.comp_def, ne_eq, foldCase_eq_pad_iff]

/-- Whether a text decodes depends on its kept characters only. -/
theorem firstInvalid_none_iff_chars (ks : List (Nat × Byte)) :
    firstInvalid ks = none ↔ ∀ c ∈ ks.map Prod.snd, (inv c).isSome = true := by
  rw [firstInvalid_none_iff, List.forall_mem_map]

/-- The symbols of a text depend on its kept characters only. -/
theorem symbolValues_eq_map_chars (ks : List (Nat × Byte)) :
    symbolValues ks = (ks.map Prod.snd).map fun c => (inv c).getD 0 := by
  rw [symbolValues, List.map_map]
  rfl

/-! ### The bytes that `B32DEC` writes (R104) -/

theorem State.decodeText_of_valid (s : State) {text : List Byte} (h : firstInvalid (kept text) = none) :
    s.decodeText text = (s.writeAt obufBase (base32Decode (symbolValues (kept text)))).complete
      (decodedLen (kept text).length) := by
  simp only [State.decodeText, h]

theorem State.decodeText_of_invalid (s : State) {text : List Byte} {p : Nat}
    (h : firstInvalid (kept text) = some p) :
    s.decodeText text = (s.drawBytes obufBase (decodedLen (kept text).length)).blockError .invalidCharacter p := by
  simp only [State.decodeText, h]

theorem firstInvalid_of_chars_alpha {ks : List (Nat × Byte)} {vs : List Symbol}
    (h : ks.map Prod.snd = vs.map alpha) : firstInvalid ks = none := by
  rw [firstInvalid_none_iff_chars, h, List.forall_mem_map]
  intro v _
  rw [inv_alpha]
  rfl

theorem symbolValues_of_chars_alpha {ks : List (Nat × Byte)} {vs : List Symbol}
    (h : ks.map Prod.snd = vs.map alpha) : symbolValues ks = vs := by
  rw [symbolValues_eq_map_chars, h, List.map_map]
  simp [Function.comp_def, inv_alpha]

/-- A bit of the symbol stream by the formula of R104. -/
theorem symbolStreamBit_eq_shift (vs : List Symbol) (i : Nat) :
    symbolStreamBit vs i = (vs.getD (i / 5) 0 >>> (4 - i % 5)).getLsbD 0 := by
  have hbit : i % 5 < 5 := Nat.mod_lt _ (by decide)
  simp [symbolStreamBit, BitVec.getMsbD, hbit]

/-- The bits of a decoded byte, most significant first. -/
theorem decodedByte_getMsbD (vs : List Symbol) (k : Nat) {t : Nat} (h : t < 8) :
    (decodedByte vs k).getMsbD t = symbolStreamBit vs (8 * k + t) := by
  rw [decodedByte, packMsb_getMsbD, decide_eq_true h, Bool.true_and]

theorem base32Decode_getElem? (vs : List Symbol) {k : Nat} (h : k < decodedLen vs.length) :
    (base32Decode vs)[k]? = some (decodedByte vs k) := by
  rw [base32Decode, List.getElem?_map, List.getElem?_range h, Option.map_some]

/-- `OBUF` after a decode without error. -/
theorem State.writeAt_base32Decode_read (s : State) (vs : List Symbol) {k : Nat} (h : k < decodedLen vs.length) :
    (s.writeAt obufBase (base32Decode vs)).mem.read (0x2000 + k) = some (decodedByte vs k) :=
  (Memory.read_writeBytes_at (h.trans_eq (base32Decode_length vs).symm)).trans (base32Decode_getElem? vs h)

/-- Settles O28: the kept characters are the symbols', and the bytes' bits are those of the symbol stream. -/
theorem b32decWritesBytes : Obligations.B32decWritesBytes := by
  intro s text vs hlen hfit hold hchars
  have hkept : (kept text).map Prod.snd = vs.map alpha := (kept_chars text).trans hchars
  have hsymbols := symbolValues_of_chars_alpha hkept
  have hcount : (kept text).length = vs.length := by rw [← symbolValues_length, hsymbols]
  refine ⟨s.mem.writeBytes obufBase (base32Decode vs), ?_,
    fun k hk => ⟨_, s.writeAt_base32Decode_read vs hk, fun t ht => ?_⟩, ?_⟩
  · rw [exec_b32dec_of_holds hlen hfit hold, s.decodeText_of_valid (firstInvalid_of_chars_alpha hkept), hsymbols,
      hcount]
    rfl
  · rw [decodedByte_getMsbD vs k ht, symbolStreamBit_eq_shift]
  · have hframe := s.mem.writeBytes_sameOutside obufBase (base32Decode vs)
    rwa [base32Decode_length] at hframe

/-! ### The first invalid character (R107) -/

theorem inv_eq_none_iff (c : Byte) : inv c = none ↔ ∀ v : Symbol, alpha v ≠ c := by
  rw [Option.eq_none_iff_forall_ne_some]
  exact forall_congr' fun v => by rw [ne_eq, inv_eq_some_iff, eq_comm]

/-- The reported index counts every character of the text, the removed ones too. -/
theorem firstInvalid_keptFrom {text : List Byte} {i : Nat} (n : Nat) (hi : i < text.length)
    (hkept : foldCase (text.getD i 0) ≠ 0x3D) (hbad : inv (foldCase (text.getD i 0)) = none)
    (hgood : ∀ j, j < i → foldCase (text.getD j 0) = 0x3D ∨ inv (foldCase (text.getD j 0)) ≠ none) :
    firstInvalid (keptFrom n text) = some (n + i) := by
  induction text generalizing n i with
  | nil => exact absurd hi (Nat.not_lt_zero i)
  | cons c cs ih =>
    cases i with
    | zero =>
      rw [List.getD_cons_zero] at hkept hbad
      simp only [keptFrom, if_neg hkept, firstInvalid, hbad, Nat.add_zero]
    | succ i =>
      have hrest := ih (n + 1) (Nat.lt_of_succ_lt_succ hi) hkept hbad
        fun j hj => hgood (j + 1) (Nat.succ_lt_succ hj)
      have hindex : n + 1 + i = n + (i + 1) := by omega
      rw [hindex] at hrest
      by_cases hpad : foldCase c = 0x3D
      · rw [keptFrom, if_pos hpad, hrest]
      · obtain ⟨v, hv⟩ := Option.ne_none_iff_exists'.mp ((hgood 0 (Nat.succ_pos i)).resolve_left hpad)
        rw [List.getD_cons_zero] at hv
        simp only [keptFrom, if_neg hpad, firstInvalid, hv, hrest]

theorem freeBytes_getElem? (start : Nat) {k j : Nat} (h : j < k) :
    (freeBytes start k)[j]? = some (Config.anyU8 (start + j)) := by
  rw [freeBytes, List.getElem?_map, List.getElem?_range h, Option.map_some]

/-- Settles O29: the index is that of the first invalid character, and the draws fill the output bytes. -/
theorem b32decReportsInvalidCharacter : Obligations.B32decReportsInvalidCharacter := by
  rintro s text i hlen hfit hold hi ⟨hkept, hbad⟩ hgood
  have hfirst := firstInvalid_keptFrom 0 hi hkept ((inv_eq_none_iff _).mpr hbad) fun j hj =>
    (hgood j hj).imp_right fun ⟨v, hv⟩ hnone => (inv_eq_none_iff _).mp hnone v hv
  rw [Nat.zero_add] at hfirst
  rw [← kept_length_eq_filter]
  refine ⟨s.mem.writeBytes obufBase (freeBytes s.draws (decodedLen (kept text).length)), ?_, fun j hj => ?_, ?_⟩
  · rw [exec_b32dec_of_holds hlen hfit hold, s.decodeText_of_invalid hfirst]
    rfl
  · exact (Memory.read_writeBytes_at (hj.trans_eq (freeBytes_length _ _).symm)).trans (freeBytes_getElem? _ hj)
  · have hframe := s.mem.writeBytes_sameOutside obufBase (freeBytes s.draws (decodedLen (kept text).length))
    rwa [freeBytes_length] at hframe

/-! ### What a decode depends on -/

/-- Settles O33: the validity, the symbols and the length are functions of the kept characters. -/
theorem decodingIgnoresCaseAndPadding : Obligations.DecodingIgnoresCaseAndPadding := by
  intro s s' t text text' hlen hfit hold hlen' hfit' hold' hchars ht herr
  have hkept : (kept text').map Prod.snd = (kept text).map Prod.snd := by rw [kept_chars, kept_chars, hchars]
  have hsymbols : symbolValues (kept text') = symbolValues (kept text) := by
    rw [symbolValues_eq_map_chars, hkept, symbolValues_eq_map_chars]
  have hcount : (kept text').length = (kept text).length := by
    rw [← symbolValues_length, hsymbols, symbolValues_length]
  rw [exec_b32dec_of_holds hlen hfit hold] at ht
  cases ht
  obtain ⟨p, -, -, hend⟩ | ⟨hvalid, hend⟩ := s.decodeText_cases text
  · rw [hend] at herr
    cases herr
  · have hvalid' : firstInvalid (kept text') = none := by
      rwa [firstInvalid_none_iff_chars, hkept, ← firstInvalid_none_iff_chars]
    refine ⟨_, exec_b32dec_of_holds hlen' hfit' hold', ?_⟩
    rw [hend, s'.decodeText_of_valid hvalid', hsymbols, hcount]
    refine ⟨rfl, rfl, fun k hk => ?_⟩
    have hk : k < decodedLen (symbolValues (kept text)).length := by
      rwa [symbolValues_length, kept_length]
    exact (s'.writeAt_base32Decode_read _ hk).trans (s.writeAt_base32Decode_read _ hk).symm

end Sys2Proof.Machine

/-! Proofs of the family other, the comparator: `TRUNCCMP`, and what a compare reveals. -/

namespace Sys2Proof.Machine

/-! ### What a compare depends on (R150) -/

/-- A compare of states with the same codes and candidate length ends the same way: with the same verdict, or at
the same stop. -/
theorem State.compare_congr {s t : State} (hlen : t.candlen = s.candlen) (hmem : t.mem = s.mem) (n k : Nat) :
    (∃ m l, s.compare n = .next (s.finish n m l) ∧ t.compare k = .next (t.finish k m l)) ∨
      ∃ f, s.compare n = .fault f ∧ t.compare k = .fault f := by
  have hexp : t.expectedCode = s.expectedCode := by rw [State.expectedCode, hmem, State.expectedCode]
  have hcand : t.candidateCode = s.candidateCode := by rw [State.candidateCode, hmem, State.candidateCode]
  have hok : t.lenOk = s.lenOk := by rw [State.lenOk, hlen, State.lenOk]
  rw [State.compare, State.compare, hok, hexp, hcand]
  split
  · cases s.expectedCode with
    | error f => exact .inr ⟨f, rfl, rfl⟩
    | ok e =>
      cases s.candidateCode with
      | error f => exact .inr ⟨f, rfl, rfl⟩
      | ok c => exact .inl ⟨_, _, rfl, rfl⟩
  · exact .inl ⟨_, _, rfl, rfl⟩

theorem exec_trunccmp_of_digest {s : State} {d : List Byte} (hilen : s.inputLen = 20) (hd : s.digest = .ok d) :
    exec .trunccmp s = (s.truncate d).compare 6 := by
  rw [exec, execTrunccmp, if_pos hilen, hd, onBytes]

/-- Settles O39: the truncation's end keeps the codes, and the two completions differ in `OLEN` only. -/
theorem trunccmpIsTruncateThenCompare : Obligations.TrunccmpIsTruncateThenCompare := by
  intro s t h herr
  obtain ⟨-, rfl⟩ | ⟨hilen, d, hd, -, rfl⟩ := execHotptrunc_next h
  · cases herr
  · rw [exec_ctcmp, exec_trunccmp_of_digest hilen hd]
    generalize s.truncate d = r
    obtain ⟨m, l, ht, hs⟩ | ⟨f, ht, hs⟩ := State.compare_congr (s := r.complete 6) (t := r) rfl rfl 0 6
    · rw [ht, hs]
      refine ⟨fun u hu => ?_, fun g hg => ?_⟩
      · cases hu; rfl
      · cases hg
    · rw [ht, hs]
      refine ⟨fun u hu => ?_, fun g hg => ?_⟩
      · cases hu
      · cases hg; rfl

/-- The digits of the code in `EXP` and a candidate are equal exactly when every byte of the candidate is. -/
theorem codeDigits_eq_iff {code : Nat} {c : List Byte} (hc : c.length = 6) :
    codeDigits code = c ↔ ∀ k, k < 6 → some (digitByte code k) = some (c.getD k 0) := by
  constructor
  · rintro rfl k hk
    rw [← codeDigits_getElem? code hk, List.getD_eq_getElem?_getD, codeDigits_getElem? code hk]
    rfl
  · intro h
    refine List.ext_getElem? fun k => ?_
    by_cases hk : k < 6
    · rw [codeDigits_getElem? code hk, h k hk, List.getD_eq_getElem?_getD, List.getElem?_eq_getElem (by omega)]
      rfl
    · rw [List.getElem?_eq_none (by rw [codeDigits_length]; omega), List.getElem?_eq_none (by omega)]

theorem State.truncate_holds_exp (s : State) (d : List Byte) :
    (s.truncate d).Holds 0x100 (codeDigits (codeOf (truncValue d))) := by
  intro k hk
  rw [codeDigits_length] at hk
  rw [s.truncate_read_exp d hk, ← codeDigits_getElem? _ hk, List.getElem?_eq_getElem]

theorem State.truncate_candAt (s : State) (d : List Byte) {k : Nat} (hk : k < 6) :
    (s.truncate d).candAt k = s.candAt k :=
  s.truncate_read_other d (by omega) (by omega)

theorem State.truncate_finish (s : State) (d : List Byte) (n : Nat) (m l : Bool) :
    (s.truncate d).finish n m l = { s with
      mem := (s.truncate d).mem, trunc := BitVec.ofNat 31 (truncValue d).toNat
      codeval := BitVec.ofNat 20 ((truncValue d).toNat % 1000000), olen := BitVec.ofNat 16 n
      errpos := 0, status := Status.success s.status.haz m l, latch := none } := by
  rw [BitVec.ofNat_toNat, BitVec.setWidth_eq]
  simp only [State.finish_eq, State.truncate_eq, codeOf]

/-- Settles O40: the truncation writes `EXP`, and the compare that follows reads it. -/
theorem trunccmpComputesAndCompares : Obligations.TrunccmpComputesAndCompares := by
  refine ⟨by decide, fun s h => exec_trunccmp_of_badLength h, fun s d hilen hlen hold o p ho hp => ?_⟩
  obtain rfl : o = truncOffset d := ho.trans (truncOffset_eq_mod d).symm
  obtain rfl : p = (truncValue d).toNat := hp.trans (truncValue_toNat d).symm
  have hexec := exec_trunccmp_of_holds hilen hlen hold
  refine ⟨(s.truncate d).mem, fun k hk => ⟨_, s.truncate_read_obuf d hk, s.truncate_read_exp d hk,
    digitByte_toNat _ k⟩, fun a => s.truncate_read_other d, fun hcandlen => ?_, fun k hcandlen hk hnone => ?_,
    fun c hcandlen hc hcand => ?_⟩
  · rw [hexec, State.compare_of_wrong_length 6 (by rwa [State.truncate_candlen]), State.truncate_finish]
    rfl
  · obtain ⟨f, hexp, -⟩ | ⟨e, f, -, hcand, hstop⟩ | ⟨e, c, -, hcand, -⟩ :=
      State.compare_cases (s := s.truncate d) 6 (by rwa [State.truncate_candlen])
    · rw [State.expectedCode_of_holds (codeDigits_length _) (s.truncate_holds_exp d)] at hexp
      cases hexp
    · obtain ⟨j, hj, hread, -, rfl⟩ := Memory.readBytes_error hcand
      exact ⟨j, hexec.trans hstop, hj, (s.truncate_candAt d hj).symm.trans hread⟩
    · exact absurd ((s.truncate_candAt d hk).trans hnone) (Memory.read_ne_none_of_readBytes hcand hk)
  · refine ⟨decide (codeDigits (codeOf (truncValue d)) = c), ?_, ?_⟩
    · rw [decide_eq_true_iff, codeDigits_eq_iff hc]
      exact forall₂_congr fun k hk => by rw [s.truncate_read_exp d hk]
    · have hcand' : (s.truncate d).Holds 0x108 c := fun k hk =>
        (s.truncate_candAt d (hk.trans_eq hc)).trans (hcand k hk)
      rw [hexec, State.compare_of_holds 6 (by rwa [State.truncate_candlen]) (codeDigits_length _) hc
        (s.truncate_holds_exp d) hcand', State.truncate_finish]
      rfl

/-! ### What a compare reveals (R152) -/

/-- Where the codes have values a compare completes, whatever the candidate length. -/
theorem State.compare_of_written {s : State} (n : Nat)
    (hw : ∀ k, k < 6 → (s.expAt k).isSome = true ∧ (s.candAt k).isSome = true) :
    ∃ m l, s.compare n = .next (s.finish n m l) := by
  by_cases hlen : s.candlen = 6
  · obtain ⟨e, hexp, -⟩ := Memory.readBytes_of_written fun k hk => (hw k hk).1
    obtain ⟨c, hcand, -⟩ := Memory.readBytes_of_written fun k hk => (hw k hk).2
    obtain ⟨f, hstop, -⟩ | ⟨-, f, -, hstop, -⟩ | ⟨e', c', -, -, hdone⟩ := State.compare_cases n hlen
    · cases hexp.symm.trans hstop
    · cases hcand.symm.trans hstop
    · exact ⟨_, _, hdone⟩
  · exact ⟨_, _, State.compare_of_wrong_length n hlen⟩

/-- A truncation writes `OBUF` the same way whatever the memory holds. -/
theorem State.truncate_read_congr {s s' : State} (d : List Byte) {a : Nat} (ha : ¬(0x100 ≤ a ∧ a < 0x106))
    (h : s'.mem.read a = s.mem.read a) : (s'.truncate d).mem.read a = (s.truncate d).mem.read a := by
  rw [s'.truncate_read_outside_exp d ha, s.truncate_read_outside_exp d ha, Memory.read_writeBytes,
    Memory.read_writeBytes, h]

/-- Settles O41: both machines take the same digest, and their compares end in any verdicts. -/
theorem compareRevealsOnlyTheVerdict : Obligations.CompareRevealsOnlyTheVerdict := by
  intro i s s' t hi hs' hmem hw h
  generalize s'.candlen = cl, s'.mem = mem at hs'
  obtain rfl | rfl := hi
  · obtain ⟨m, l, -, rfl⟩ := State.compare_next_verdict h
    obtain ⟨m', l', h'⟩ := State.compare_of_written 0 hw
    exact ⟨_, h', by rw [hs']; rfl, hmem⟩
  · obtain ⟨hbad, rfl⟩ | ⟨hilen, d, hd, -, h⟩ := execTrunccmp_next h
    · exact ⟨_, exec_trunccmp_of_badLength (by rw [hs']; exact hbad), by rw [hs']; rfl, hmem⟩
    · have hd' : s'.digest = .ok d :=
        (Memory.readBytes_congr fun k hk => hmem _ (by simp only [ibufBase]; omega)
          (by simp only [ibufBase]; omega)).trans hd
      have hw' : ∀ k, k < 6 → ((s'.truncate d).expAt k).isSome = true ∧ ((s'.truncate d).candAt k).isSome = true :=
        fun k hk => (hw k hk).imp ((s'.extends_truncate d).written _) ((s'.extends_truncate d).written _)
      obtain ⟨m, l, -, rfl⟩ := State.compare_next_verdict h
      obtain ⟨m', l', h'⟩ := State.compare_of_written 6 hw'
      refine ⟨_, (exec_trunccmp_of_digest (by rw [hs']; exact hilen) hd').trans h', ?_, fun a hexp hcand => ?_⟩
      · rw [State.truncate_finish, State.truncate_finish, hs']
        rfl
      · rw [State.finish_mem, State.finish_mem]
        exact State.truncate_read_congr d hexp (hmem a hexp hcand)

end Sys2Proof.Machine

/-! Proofs of the family other, steps: what one step does, and the events at which a field changes. -/

namespace Sys2Proof.Machine

/-! ### Every event of a step -/

/-- The next states of a step from `s`: a completion, the reset, a write, or a host slot that changes nothing of the
block but the running command's cycle. -/
inductive StepEvent (s : State) : State → Prop
  | completion {w : Word} {t : State} (hc : s.completing = some w) (h : Completion s (decode w) t) : StepEvent s t
  | reset (ho : s.nextOp = some .reset) : StepEvent s (s.applyReset.goto (s.hpc + 1))
  | write (off : Offset) (width : Nat) (v : Word) (g : Target) (hc : s.completing = none)
      (ho : s.nextOp = some (.write off width v)) (hg : accessTarget s.cfg off width = some g) :
      StepEvent s ((s.tick.busWrite v g).goto (s.hpc + 1))
  | quiet {line draws : Nat} {resp : BusResponse} (hc : s.completing = none)
      (hw : ∀ off width v, s.nextOp ≠ some (.write off width v)) (hr : s.nextOp ≠ some .reset) :
      StepEvent s { s.tick with hpc := line, resp := resp, draws := draws }

theorem step_event {s t : State} (h : step s = .next t) : StepEvent s t := by
  obtain ⟨w, hc, hs⟩ | ⟨hc, hs⟩ := step_cases s <;> rw [hs] at h
  · exact .completion hc (exec_completion h)
  · obtain ⟨ho, rfl⟩ | ⟨ho, rfl⟩ | ⟨off, w, g, ho, -, rfl⟩ | ⟨off, w, v, g, ho, hg, rfl⟩ |
      ⟨l, off, b, g, ho, -, rfl⟩ | ⟨ho, rfl⟩ := State.hostStep_next h
    · exact .quiet hc (by simp [ho]) (by simp [ho])
    · exact .quiet hc (by simp [ho]) (by simp [ho])
    · obtain ⟨r, d, hread, -⟩ := s.tick.busRead_shape g
      rw [hread]
      exact .quiet hc (by simp [ho]) (by simp [ho])
    · exact .write off w v g hc ho hg
    · obtain ⟨r, d, hread, -⟩ := s.tick.busRead_shape g
      rw [hread]
      exact .quiet hc (by simp [ho]) (by simp [ho])
    · exact .reset ho

/-! ### The fields after an admitted write -/

section

variable (s : State) (v : Word) (g : Target)

/-- A write changes no result register and none of the fields that stand around the block. -/
theorem State.busWrite_frame :
    (s.busWrite v g).cfg = s.cfg ∧ (s.busWrite v g).script = s.script ∧ (s.busWrite v g).olen = s.olen ∧
      (s.busWrite v g).errpos = s.errpos ∧ (s.busWrite v g).trunc = s.trunc ∧
      (s.busWrite v g).codeval = s.codeval := by
  cases hb : s.busy with
  | true =>
    obtain ⟨st, ie, h, -⟩ := State.busWrite_busy hb v g
    rw [h]
    exact ⟨rfl, rfl, rfl, rfl, rfl, rfl⟩
  | false =>
    obtain h | ⟨b, a, x, -, h⟩ | ⟨st, ie, il, lo, hi, cl, h, -⟩ := State.busWrite_idle hb v g <;> rw [h] <;>
      exact ⟨rfl, rfl, rfl, rfl, rfl, rfl⟩

/-- What a write stores outside `STATUS` and the input registers: an idle `CMD` write fills the latch, a `CTRL` write
its bit, and a byte write at most the byte it reaches, never one of `OBUF`. -/
theorem State.busWrite_stores :
    (s.busWrite v g).latch =
        (if s.busy = false ∧ g = .reg .cmd then some { word := v, wait := Config.latExtra (opcOf v) s.ilen }
        else s.latch) ∧
      (s.busWrite v g).ctrlIe = (if g = .reg .ctrl then v.getLsbD 0 else s.ctrlIe) ∧
      ((s.busWrite v g).mem = s.mem ∨
        ∃ b a x, b ≠ .obuf ∧ g = .byte b a ∧ (s.busWrite v g).mem = s.mem.write a x) := by
  cases g with
  | reg r => cases hb : s.busy <;> cases r <;> simp [State.busWrite, State.writeReg, State.inputWrite, hb]
  | byte b a => cases hb : s.busy <;> cases b <;> simp [State.busWrite, State.writeByte, State.inputWrite, hb]
  | reservedByte => simp [State.busWrite]

theorem State.busWrite_latch :
    (s.busWrite v g).latch =
      if s.busy = false ∧ g = .reg .cmd then some { word := v, wait := Config.latExtra (opcOf v) s.ilen }
      else s.latch :=
  (s.busWrite_stores v g).1

theorem State.busWrite_busyFlag : (s.busWrite v g).busy = (s.busy || decide (g = .reg .cmd)) := by
  rw [State.busy, State.busWrite_latch]
  by_cases hidle : s.busy = false
  · by_cases hcmd : g = .reg .cmd
    · simp [hidle, hcmd]
    · rw [if_neg fun h => hcmd h.2, ← State.busy, decide_eq_false hcmd, Bool.or_false]
  · rw [if_neg fun h => hidle h.1, ← State.busy, Bool.eq_true_of_not_eq_false hidle, Bool.true_or]

theorem State.busWrite_ctrlIe :
    (s.busWrite v g).ctrlIe = if g = .reg .ctrl then v.getLsbD 0 else s.ctrlIe :=
  (s.busWrite_stores v g).2.1

theorem State.busWrite_mem :
    (s.busWrite v g).mem = s.mem ∨
      ∃ b a x, b ≠ .obuf ∧ g = .byte b a ∧ (s.busWrite v g).mem = s.mem.write a x :=
  (s.busWrite_stores v g).2.2

/-- `DONE` after a write: bit [1] of a `STATUS` write and an acceptance clear it (R27). -/
theorem State.busWrite_done :
    (s.busWrite v g).status.done =
      (s.status.done && !(decide (g = .reg .status) && v.getLsbD 1) && !(!s.busy && decide (g = .reg .cmd))) := by
  rw [State.busWrite_status]
  cases g with
  | reg r => cases hb : s.busy <;> cases r <;>
      simp [Target.droppedWhileBusy, Reg.droppedWhileBusy, Status.hazard, Status.accepted, Status.written]
  | byte b a => cases hb : s.busy <;> cases b <;> simp [Target.droppedWhileBusy, Status.hazard]
  | reservedByte => simp [Target.droppedWhileBusy]

/-- The report after a write: an acceptance clears it, and every other write leaves it (R28, R30). -/
theorem State.busWrite_report :
    (s.busy = false ∧ g = .reg .cmd ∧ (s.busWrite v g).status = s.status.accepted) ∨
      ((s.busWrite v g).status.err = s.status.err ∧ (s.busWrite v g).status.errcode = s.status.errcode ∧
        (s.busWrite v g).status.matched = s.status.matched ∧ (s.busWrite v g).status.lenmis = s.status.lenmis) := by
  rw [State.busWrite_status]
  split
  · exact .inr ⟨rfl, rfl, rfl, rfl⟩
  · rename_i hdrop
    split
    · rename_i hcmd
      refine .inl ⟨?_, hcmd, rfl⟩
      simpa [hcmd, Target.droppedWhileBusy, Reg.droppedWhileBusy] using hdrop
    · split <;> exact .inr ⟨rfl, rfl, rfl, rfl⟩

end

/-! ### The targets of single accesses -/

theorem accessTarget_cmd {p : Config.Params} {off : Offset} {w : Nat}
    (h : accessTarget p off w = some (.reg .cmd)) : off = 0x008 ∧ w = 4 := by
  obtain ⟨hw, h4, -, hr⟩ := accessTarget_reg h
  obtain ⟨-, -, hcmd, -⟩ := regAt_eq_iff h4
  exact ⟨BitVec.eq_of_toNat_eq (hcmd.mp hr), hw⟩

theorem accessTarget_ctrl {p : Config.Params} {off : Offset} {w : Nat}
    (h : accessTarget p off w = some (.reg .ctrl)) : off = 0x004 ∧ w = 4 := by
  obtain ⟨hw, h4, -, hr⟩ := accessTarget_reg h
  obtain ⟨-, hctrl, -⟩ := regAt_eq_iff h4
  exact ⟨BitVec.eq_of_toNat_eq (hctrl.mp hr), hw⟩

/-- A buffer byte is reached by a byte access at its own offset. -/
theorem accessTarget_byte_addr {p : Config.Params} {off : Offset} {w a : Nat} {b : Buffer}
    (h : accessTarget p off w = some (.byte b a)) : w = 1 ∧ a = off.toNat := by
  simp only [accessTarget] at h
  split at h
  · split at h <;> cases h
  · split at h
    case isTrue hw => exact ⟨hw, (byteTarget_byte h).1⟩
    case isFalse => cases h

/-- With allowed parameters the bytes the host can write lie below `OBUF`. -/
theorem accessTarget_byte_lt {p : Config.Params} (hok : p.Ok) {off : Offset} {w a : Nat} {b : Buffer}
    (h : accessTarget p off w = some (.byte b a)) (hb : b ≠ .obuf) : a < 0x2000 := by
  obtain ⟨-, hibuf, -⟩ := hok
  obtain ⟨rfl, rfl⟩ := accessTarget_byte_addr h
  obtain ⟨hw, -⟩ | ⟨-, hrange⟩ := (accessTarget_droppedWhileBusy_iff h).mp (decide_eq_true hb)
  · cases hw
  · omega

/-! ### The events of `BUSY`, `DONE`, the report, `CTRL.IE` and `IRQ` -/

theorem step_busy_rises {s t : State} (h : step s = .next t) (hs : s.busy = false) (ht : t.busy = true) :
    ∃ v, s.nextOp = some (.write 0x008 4 v) := by
  cases step_event h with
  | completion hc hcompl => rw [State.busy_of_none hcompl.latch] at ht; cases ht
  | reset => cases ht
  | write off width v g hc ho hg =>
    have hcmd : g = .reg .cmd := by
      have hbusy : (s.tick.busWrite v g).busy = true := ht
      simpa [State.busWrite_busyFlag, hs] using hbusy
    obtain ⟨rfl, rfl⟩ := accessTarget_cmd (hcmd ▸ hg)
    exact ⟨v, ho⟩
  | quiet =>
    have hbusy : s.tick.busy = true := ht
    simp [hs] at hbusy

theorem step_busy_falls {s t : State} (h : step s = .next t) (hs : s.busy = true) (ht : t.busy = false) :
    s.completing ≠ none ∨ s.nextOp = some .reset := by
  cases step_event h with
  | completion hc => exact .inl (by simp [hc])
  | reset ho => exact .inr ho
  | write off width v g =>
    have hbusy : (s.tick.busWrite v g).busy = false := ht
    simp [State.busWrite_busyFlag, hs] at hbusy
  | quiet =>
    have hbusy : s.tick.busy = false := ht
    simp [hs] at hbusy

theorem step_done_rises {s t : State} (h : step s = .next t) (hs : s.status.done = false)
    (ht : t.status.done = true) : s.completing ≠ none := by
  cases step_event h with
  | completion hc => simp [hc]
  | reset => cases ht
  | write off width v g hc ho hg => simp [State.busWrite_done, hs] at ht
  | quiet => simp [hs] at ht

theorem step_done_falls {s t : State} (h : step s = .next t) (hs : s.status.done = true)
    (ht : t.status.done = false) :
    s.nextOp = some .reset ∨ (∃ v, s.busy = false ∧ s.nextOp = some (.write 0x008 4 v)) ∨
      ∃ v : Word, s.nextOp = some (.write 0x00C 4 v) ∧ v.getLsbD 1 = true := by
  cases step_event h with
  | completion hc hcompl =>
    obtain ⟨m, l, -, hstatus, -⟩ | ⟨c, -, hstatus, -⟩ := hcompl.report <;> rw [hstatus] at ht <;> cases ht
  | reset ho => exact .inl ho
  | quiet => simp [hs] at ht
  | write off width v g hc ho hg =>
    have hcause : ¬(g = .reg .status ∧ v.getLsbD 1 = true) → s.busy = false ∧ g = .reg .cmd := by
      simpa [State.busWrite_done, hs, imp_iff_not_or] using ht
    by_cases hstatus : g = .reg .status ∧ v.getLsbD 1 = true
    · obtain ⟨rfl, hv⟩ := hstatus
      obtain ⟨rfl, rfl⟩ := accessTarget_status hg
      exact .inr (.inr ⟨v, ho, hv⟩)
    · obtain ⟨hidle, rfl⟩ := hcause hstatus
      obtain ⟨rfl, rfl⟩ := accessTarget_cmd hg
      exact .inr (.inl ⟨v, hidle, ho⟩)

/-- Settles O54: the rise and the fall of `BUSY` and of `DONE`. -/
theorem busyAndDoneChangeOnlyAtTheirEvents : Obligations.BusyAndDoneChangeOnlyAtTheirEvents :=
  fun _ _ h => ⟨step_busy_rises h, step_busy_falls h, step_done_rises h, step_done_falls h⟩

/-- Settles O55: a write that is no acceptance leaves the report, and a quiet slot leaves all of `STATUS`. -/
theorem reportChangesOnlyAtItsEvents : Obligations.ReportChangesOnlyAtItsEvents := by
  intro s t h hne
  cases step_event h with
  | completion hc => exact .inl (by simp [hc])
  | reset ho => exact .inr (.inl ho)
  | quiet => simp at hne
  | write off width v g hc ho hg =>
    obtain ⟨hidle, rfl, -⟩ | ⟨herr, hcode, hmatched, hlenmis⟩ := s.tick.busWrite_report v g
    · obtain ⟨rfl, rfl⟩ := accessTarget_cmd hg
      exact .inr (.inr ⟨s.tick_busy ▸ hidle, v, ho⟩)
    · simp [herr, hcode, hmatched, hlenmis] at hne

/-- Settles O57: `CTRL` is the one target whose write moves `IE`. -/
theorem enableChangesOnlyByCtrlWrite : Obligations.EnableChangesOnlyByCtrlWrite := by
  intro s t h hne
  cases step_event h with
  | completion hc hcompl => exact absurd hcompl.ctrlIe hne
  | reset ho => exact .inl ho
  | quiet => exact absurd rfl hne
  | write off width v g hc ho hg =>
    rw [State.goto_ctrlIe, State.busWrite_ctrlIe] at hne ⊢
    by_cases hctrl : g = .reg .ctrl
    · subst hctrl
      obtain ⟨rfl, rfl⟩ := accessTarget_ctrl hg
      exact .inr ⟨v, ho, if_pos rfl⟩
    · rw [if_neg hctrl] at hne
      exact absurd rfl hne

/-- Settles O59: `IRQ` moves with `DONE` or with `IE`. -/
theorem irqFallsAndRises : Obligations.IrqFallsAndRises := by
  intro s t h
  refine ⟨fun hs ht => ?_, fun hs ht => ?_, fun hc v ho hv => ?_, fun hc v ho => ?_⟩
  · obtain ⟨hdone, hie⟩ : s.status.done = true ∧ s.ctrlIe = true := by simpa [State.irq] using hs
    cases htdone : t.status.done with
    | false =>
      obtain hr | hcmd | hstatus := step_done_falls h hdone htdone
      · exact .inl hr
      · exact .inr (.inl hcmd)
      · exact .inr (.inr (.inl hstatus))
    | true =>
      have htie : t.ctrlIe = false := by simpa [State.irq, htdone] using ht
      obtain hr | ⟨v, ho, hv⟩ := enableChangesOnlyByCtrlWrite s t h (by simp [htie, hie])
      · exact .inl hr
      · exact .inr (.inr (.inr ⟨v, ho, hv.symm.trans htie⟩))
  · obtain ⟨htdone, htie⟩ : t.status.done = true ∧ t.ctrlIe = true := by simpa [State.irq] using ht
    cases hdone : s.status.done with
    | false => exact .inl (step_done_rises h hdone htdone)
    | true =>
      have hie : s.ctrlIe = false := by simpa [State.irq, hdone] using hs
      obtain hr | ⟨v, ho, hv⟩ := enableChangesOnlyByCtrlWrite s t h (by simp [htie, hie])
      · rw [step_reset hr] at h
        cases h
        cases htdone
      · exact .inr ⟨rfl, v, ho, hv.symm.trans htie⟩
  · rw [step_write (g := .reg .status) hc ho rfl] at h
    cases h
    simp [State.irq, State.busWrite_done, hv]
  · rw [step_write (g := .reg .ctrl) hc ho rfl] at h
    cases h
    rfl

/-! ### The results and the parameters -/

/-- Settles O56: a write reaches no result register and no byte of `OBUF`. -/
theorem hostNeverWritesResults : Obligations.HostNeverWritesResults := by
  intro s t hok h hc hr
  cases step_event h with
  | completion hdue => rw [hc] at hdue; cases hdue
  | reset ho => exact absurd ho hr
  | quiet => exact ⟨rfl, rfl, rfl, rfl, fun _ => rfl⟩
  | write off width v g _ ho hg =>
    obtain ⟨-, -, holen, herrpos, htrunc, hcodeval⟩ := s.tick.busWrite_frame v g
    refine ⟨holen, herrpos, htrunc, hcodeval, fun j => ?_⟩
    rw [State.obufAt, State.obufAt, State.goto_mem]
    obtain hmem | ⟨b, a, x, hb, rfl, hmem⟩ := s.tick.busWrite_mem v g <;> rw [hmem]
    · rfl
    · have ha := accessTarget_byte_lt hok hg hb
      exact Memory.read_write_other (by omega)

/-- Settles O58: no event of a step changes the parameters or the script. -/
theorem parametersNeverChange : Obligations.ParametersNeverChange := by
  intro s t h
  cases step_event h with
  | completion hc hcompl => exact ⟨hcompl.cfg, hcompl.script⟩
  | reset => exact ⟨rfl, rfl⟩
  | quiet => exact ⟨rfl, rfl⟩
  | write off width v g =>
    obtain ⟨hcfg, hscript, -⟩ := s.tick.busWrite_frame v g
    exact ⟨hcfg, hscript⟩

/-- Settles O52: what a step without a reset keeps, of the family 43_control.md. -/
theorem writtenBuffersStayWritten : Obligations.WrittenBuffersStayWritten :=
  fun _ _ hw h hr => (step_extends hr h).allWritten hw

end Sys2Proof.Machine

/-! Proofs of the family other, invariants: the memory, the fields of `STATUS` and the result registers. -/

namespace Sys2Proof.Machine

/-! ### The memory (R35, R61) -/

theorem State.MemoryInv.of_mem_eq {s t : State} (h : s.MemoryInv) (hc : t.cfg = s.cfg) (hm : t.mem = s.mem) :
    t.MemoryInv := by
  rwa [State.MemoryInv, hc, hm]

theorem State.MemoryInv.finish {s : State} (h : s.MemoryInv) (n : Nat) (m l : Bool) : (s.finish n m l).MemoryInv :=
  h

theorem State.MemoryInv.blockError {s : State} (h : s.MemoryInv) (c : ErrCode) (p : Nat) :
    (s.blockError c p).MemoryInv :=
  h

/-- A write inside a buffer keeps the memory canonical and inside the buffers. -/
theorem State.MemoryInv.writeAt {s : State} (h : s.MemoryInv) {b : Nat} {vs : List Byte}
    (hrange : ∀ a, b ≤ a → a < b + vs.length → isBufferByte s.cfg a) : (s.writeAt b vs).MemoryInv := by
  obtain ⟨hwf, hlist⟩ := h
  refine ⟨Memory.writeBytes_wf hwf, fun c hc => ?_⟩
  obtain ⟨hlo, hhi⟩ | hold := Memory.mem_writeBytes hc
  · exact hrange c.1 hlo hhi
  · exact hlist c hold

theorem State.MemoryInv.writeObuf {s : State} (h : s.MemoryInv) {vs : List Byte}
    (hfit : vs.length ≤ s.cfg.obufSize) : (s.writeAt obufBase vs).MemoryInv :=
  h.writeAt fun _ hlo hhi => .inr (.inr (.inr ⟨hlo, hhi.trans_le (Nat.add_le_add_left hfit _)⟩))

theorem State.MemoryInv.writeExp {s : State} (h : s.MemoryInv) {vs : List Byte} (hlen : vs.length = 6) :
    (s.writeAt expBase vs).MemoryInv :=
  h.writeAt fun _ hlo hhi => .inl ⟨hlo, by rwa [hlen] at hhi⟩

theorem State.MemoryInv.truncate {s : State} (h : s.MemoryInv) (hok : s.cfg.Ok) (d : List Byte) :
    (s.truncate d).MemoryInv := by
  obtain ⟨-, -, hobuf, -⟩ := hok
  have hboth := (h.writeObuf (vs := codeDigits (codeOf (truncValue d))) (by rw [codeDigits_length]; omega)).writeExp
    (codeDigits_length (codeOf (truncValue d)))
  simpa only [State.MemoryInv, State.truncate_cfg, State.truncate_mem, State.writeAt_cfg, State.writeAt_mem]
    using hboth

theorem State.MemoryInv.zeroBuffers {s : State} (h : s.MemoryInv) : s.zeroBuffers.MemoryInv := by
  have hobuf := h.writeObuf (vs := List.replicate s.cfg.obufSize 0) (List.length_replicate ..).le
  have hibuf := hobuf.writeAt (b := ibufBase) (vs := List.replicate s.cfg.ibufSize 0) fun a hlo hhi =>
    .inr (.inr (.inl ⟨hlo, by rwa [List.length_replicate] at hhi⟩))
  have hcand := hibuf.writeAt (b := candBase) (vs := List.replicate 6 0) fun a hlo hhi => .inr (.inl ⟨hlo, hhi⟩)
  exact hcand.writeExp (List.length_replicate ..)

theorem Completion.memoryInv {i : Instr} {s t : State} (h : Completion s i t) (hok : s.cfg.Ok)
    (hs : s.MemoryInv) : t.MemoryInv := by
  cases h with
  | nop | compared => exact hs.finish _ _ _
  | illegal | badLength => exact hs.blockError _ _
  | encoded bs hlen hfit =>
    have hlaw := encodedLen_le_obufSize hok (hlen.trans_le hfit)
    exact (hs.writeObuf ((base32Encode_length bs).trans_le hlaw)).finish _ _ _
  | decoded text hlen hfit =>
    have hlaw := decodedLen_le_obufSize hok (hlen.trans_le hfit)
    exact (hs.writeObuf (by rwa [base32Decode_length, symbolValues_length])).finish _ _ _
  | invalid text p hlen hfit =>
    have hlaw := decodedLen_le_obufSize hok (hlen.trans_le hfit)
    have hfree : (freeBytes s.draws (decodedLen (kept text).length)).length ≤ s.cfg.obufSize := by
      rwa [freeBytes_length]
    exact ((hs.writeObuf hfree).of_mem_eq (t := s.drawBytes obufBase _) rfl rfl).blockError _ _
  | serialised =>
    obtain ⟨-, -, hobuf, -⟩ := hok
    exact (hs.writeObuf ((counterBytes_length _).trans_le hobuf)).finish _ _ _
  | truncated d | truncatedCompared d => exact (hs.truncate hok d).finish _ _ _
  | zeroized => exact (hs.zeroBuffers.of_mem_eq (State.zeroRegisters_cfg _) (State.zeroRegisters_mem _)).finish _ _ _

/-- Settles O48: each command writes inside the buffers, and the host writes bytes that the map has. -/
theorem memoryStaysCanonical : Obligations.MemoryStaysCanonical := by
  intro s t hok hs h
  cases step_event h with
  | completion hc hcompl => exact hcompl.memoryInv hok hs
  | reset => exact ⟨rfl, nofun⟩
  | quiet => exact hs
  | write off width v g hc ho hg =>
    obtain ⟨hcfg, -⟩ := s.tick.busWrite_frame v g
    obtain hmem | ⟨b, a, x, -, rfl, hmem⟩ := s.tick.busWrite_mem v g
    · exact hs.of_mem_eq hcfg hmem
    · have ha := accessTarget_byte hg
      have hwrite : (s.writeAt a [x]).MemoryInv := hs.writeAt fun c hlo hhi => by
        obtain rfl : c = a := Nat.le_antisymm (Nat.le_of_lt_succ hhi) hlo
        exact ha
      exact hwrite.of_mem_eq hcfg hmem

/-! ### The fields of `STATUS` (R26 to R30) -/

/-- `State.StatusInv` of the fields and of `BUSY`. -/
def Status.Consistent (t : Status) (busy : Bool) : Prop :=
  (busy = true → t.done = false ∧ t.err = false ∧ t.matched = false ∧ t.lenmis = false ∧ t.errcode = .none) ∧
    (t.err = true ↔ t.errcode ≠ .none) ∧ (t.matched = true → t.lenmis = false ∧ t.err = false) ∧
    (t.lenmis = true → t.err = false)

theorem State.statusInv_iff (s : State) : s.StatusInv ↔ s.status.Consistent s.busy := Iff.rfl

namespace Status.Consistent

theorem reset : Status.reset.Consistent false := by
  simp [Status.Consistent, Status.reset]

theorem accepted (t : Status) : t.accepted.Consistent true := by
  simp [Status.Consistent, Status.accepted]

theorem completed (t : Status) {m l : Bool} (h : m = true → l = false) : (t.completed m l).Consistent false := by
  simpa [Status.Consistent, Status.completed] using h

theorem failed (t : Status) {c : ErrCode} (h : c ≠ .none) : (t.failed c).Consistent false := by
  simpa [Status.Consistent, Status.failed] using h

theorem hazard {t : Status} {busy : Bool} (h : t.Consistent busy) : t.hazard.Consistent busy := h

theorem written {t : Status} {busy : Bool} (h : t.Consistent busy) (v : Word) :
    (t.written v).Consistent busy := by
  obtain ⟨hbusy, hreport⟩ := h
  refine ⟨fun hb => ?_, hreport⟩
  obtain ⟨hdone, hclear⟩ := hbusy hb
  exact ⟨by simp [Status.written, hdone], hclear⟩

end Status.Consistent

theorem State.busWrite_statusInv {s : State} (h : s.StatusInv) (v : Word) (g : Target) :
    (s.busWrite v g).StatusInv := by
  rw [State.statusInv_iff] at h ⊢
  rw [State.busWrite_status, State.busWrite_busyFlag]
  by_cases hdrop : s.busy = true ∧ g.droppedWhileBusy = true
  · rw [if_pos hdrop, hdrop.1, Bool.true_or, ← hdrop.1]
    exact h.hazard
  · rw [if_neg hdrop]
    by_cases hcmd : g = .reg .cmd
    · rw [if_pos hcmd, decide_eq_true hcmd, Bool.or_true]
      exact .accepted _
    · rw [if_neg hcmd, decide_eq_false hcmd, Bool.or_false]
      split
      · exact h.written v
      · exact h

/-- Settles O49: every event keeps the fields consistent with `BUSY`. -/
theorem statusStaysConsistent : Obligations.StatusStaysConsistent := by
  intro s t hs h
  have htick : s.tick.StatusInv := by
    rw [State.statusInv_iff, State.tick_status, State.tick_busy]
    exact hs
  cases step_event h with
  | completion hc hcompl =>
    rw [State.statusInv_iff, State.busy_of_none hcompl.latch]
    obtain ⟨m, l, hml, hstatus, -⟩ | ⟨c, hne, hstatus, -⟩ := hcompl.report <;> rw [hstatus]
    · exact .completed _ hml
    · exact .failed _ hne
  | reset => exact Status.Consistent.reset
  | quiet => exact htick
  | write off width v g => exact State.busWrite_statusInv htick v g

/-! ### The result registers (R32, R33, R37, R38) -/

theorem Completion.codeval {i : Instr} {s t : State} (h : Completion s i t)
    (hs : s.codeval.toNat = s.trunc.toNat % 1000000) : t.codeval.toNat = t.trunc.toNat % 1000000 := by
  cases h with
  | truncated d | truncatedCompared d =>
    rw [State.finish_codeval, State.truncate_codeval, State.finish_trunc, State.truncate_trunc,
      codeval_toNat, codeOf]
  | zeroized => simp
  | _ => exact hs

theorem Completion.olen_le {i : Instr} {s t : State} (h : Completion s i t) (hok : s.cfg.Ok) :
    t.olen.toNat ≤ s.cfg.obufSize := by
  obtain ⟨-, -, hmin, -⟩ := id hok
  cases h with
  | nop | illegal | badLength | invalid | compared | zeroized => exact Nat.zero_le _
  | encoded bs hlen hfit =>
    exact (Nat.mod_le _ _).trans (encodedLen_le_obufSize hok (hlen.trans_le hfit))
  | decoded text hlen hfit =>
    exact (Nat.mod_le _ _).trans (decodedLen_le_obufSize hok (hlen.trans_le hfit))
  | serialised => exact hmin
  | truncated | truncatedCompared => exact le_trans (by decide : 6 ≤ 8) hmin

theorem Completion.errpos_lt {i : Instr} {s t : State} (h : Completion s i t) (hok : s.cfg.Ok) :
    t.errpos.toNat < s.cfg.ibufSize := by
  obtain ⟨hmin, -⟩ := hok
  cases h with
  | invalid text p hlen hfit hp =>
    exact (Nat.mod_le _ _).trans_lt (hp.trans_le (hlen.trans_le hfit))
  | _ => exact hmin.trans_lt' (by decide : 0 < 20)

/-- A position stays only with `INVALID_CHARACTER` (R33). -/
theorem Completion.errcode_of_errpos {i : Instr} {s t : State} (h : Completion s i t) (hpos : t.errpos ≠ 0) :
    t.status.errcode = .invalidCharacter := by
  obtain ⟨-, -, -, -, hzero⟩ | ⟨c, -, hstatus, hzero⟩ := h.report
  · exact absurd hzero hpos
  · rw [hstatus]
    by_contra hne
    exact hpos (hzero hne)

/-- Settles O50: a completion leaves results in range, and a host slot leaves them alone. -/
theorem resultsStayInRange : Obligations.ResultsStayInRange := by
  rintro s t hok ⟨hcode, holen, herrpos, hcause⟩ h
  cases step_event h with
  | completion hc hcompl =>
    refine ⟨hcompl.codeval hcode, ?_, ?_, fun _ => hcompl.errcode_of_errpos⟩ <;> rw [hcompl.cfg]
    · exact hcompl.olen_le hok
    · exact hcompl.errpos_lt hok
  | reset =>
    obtain ⟨hmin, -⟩ := hok
    exact ⟨rfl, Nat.zero_le _, hmin.trans_lt' (by decide : 0 < 20), fun _ hne => absurd rfl hne⟩
  | quiet => exact ⟨hcode, holen, herrpos, fun hb => hcause (s.tick_busy ▸ hb)⟩
  | write off width v g =>
    obtain ⟨hcfg, -, hol, herr, htr, hcv⟩ := s.tick.busWrite_frame v g
    refine ⟨?_, ?_, ?_, fun hb hne => ?_⟩
    · simpa [hcv, htr] using hcode
    · simpa [hol, hcfg] using holen
    · simpa [herr, hcfg] using herrpos
    · have hflags := Bool.or_eq_false_iff.mp ((s.tick.busWrite_busyFlag v g).symm.trans hb)
      obtain ⟨hidle, hcmd⟩ := hflags
      obtain ⟨-, hacc, -⟩ | ⟨-, hkept, -⟩ := s.tick.busWrite_report v g
      · exact absurd hacc (of_decide_eq_false hcmd)
      · exact hkept.trans (hcause (s.tick_busy ▸ hidle) (herr ▸ hne))

/-- Settles O51: the reset memory is empty, and the registers are 0. -/
theorem resetMeetsTheInvariant : Obligations.ResetMeetsTheInvariant := by
  have hreset : ∀ p : Config.Params, p.Ok → (State.resetWith p).Inv := by
    intro p hok
    obtain ⟨hmin, -⟩ := id hok
    exact ⟨hok, ⟨rfl, nofun⟩, Status.Consistent.reset, rfl, Nat.zero_le _,
      hmin.trans_lt' (by decide : 0 < 20), fun _ hne => absurd rfl hne⟩
  exact ⟨hreset _ (by decide), hreset⟩

end Sys2Proof.Machine
